-- ==== Sys2Proof/Word.lean ====
section
/-! DEFINITION. The word types of the block (spec/00_scope.md R7, R8). -/

namespace Sys2Proof

/-- A 32-bit word: registers, ports and linear addresses (R7, R8, R63). -/
abbrev Word := BitVec 32

/-- A 16-bit value (R22, R144). -/
abbrev Half := BitVec 16

/-- A byte of memory (R11). -/
abbrev Byte := BitVec 8

end Sys2Proof
end

