-- ==== Sys2Proof/Config.lean ====
section
/-! DEFINITION. What an implementation fixes (spec/00_scope.md R6) and the one free value the spec leaves open. -/

namespace Sys2Proof

/-- The OPEN parameters of R6: arguments the model takes. `State` holds one such record, which no step changes, so that a
statement about every state is a statement about every choice of them (log 9). -/
structure Params where
  /-- `MXCSR_MASK` (10_state.md R42). -/
  mxcsrMask : Word
  /-- `FXRSTOR_IP_QUIRK` (42_fxstate.md R177). -/
  fxrstorIpQuirk : Bool
  /-- `FX_ALIGN_CHECK` (42_fxstate.md R178). -/
  fxAlignCheck : Bool
deriving DecidableEq, Repr

/-- The recommended mask and the two defaults of R6. -/
def Params.recommended : Params :=
  { mxcsrMask := 0x0000FFBF, fxrstorIpQuirk := false, fxAlignCheck := false }

/-- `GP_CODE_MXCSR`, fixed to 0 by R6 (60_exceptions.md R203). -/
def Config.gpCodeMxcsr : BitVec 16 := 0

/-- FREE VALUE (log 4). The n-th draw of `FAULT_ADDR`: it selects which failing byte a memory fault reports (20_memory.md
R64: "Which byte is a draw"). It has no body, so nothing can be proved about which byte is chosen. -/
opaque Config.faultDraw : Nat → Nat

end Sys2Proof
end

