-- ==== Sys2Proof/Syntax.lean ====
section
/-! DEFINITION. The commands of the block, one constructor per row of spec/opcode_table.json, with their decoded operands
(spec/30_encoding.md R82, R83), and the assembler level of R88. -/

namespace Sys2Proof

/-- One command: one call of one entry point with already-decoded operands (R5, R80). The operands are the port values that
R82 names for the command; EVAL_CC has the `CC` field of its word (R84). -/
inductive Instr where
  /-- GET_CF (40_flags.md R101). -/
  | getcf
  /-- GET_PF (R102). -/
  | getpf
  /-- GET_AF (R103). -/
  | getaf
  /-- GET_ZF (R104). -/
  | getzf
  /-- GET_SF (R105). -/
  | getsf
  /-- GET_OF (R106). -/
  | getof
  /-- TEST_O (R108). -/
  | testO
  /-- TEST_B (R109). -/
  | testB
  /-- TEST_Z (R110). -/
  | testZ
  /-- TEST_S (R111). -/
  | testS
  /-- TEST_P (R112). -/
  | testP
  /-- TEST_BE (R113). -/
  | testBe
  /-- TEST_L (R114). -/
  | testL
  /-- TEST_LE (R115). -/
  | testLe
  /-- EVAL_CC with its condition code (R116). -/
  | evalcc (cc : BitVec 4)
  /-- SNAP_WRITE, ports A to F (R117). -/
  | snap (op1 op2 result addResult opSize dirtyMask : Word)
  /-- FLAGS_WRITE, ports A and B (R118). -/
  | setflags (value mask : Word)
  /-- STACK_EA, port A (41_stack.md R141). -/
  | stackEa (offset : Word)
  /-- STACK_ADJUST, port A (R143). -/
  | stackAdjust (amount : Word)
  /-- PUSH16, bits 15:0 of port A (R144, R85). -/
  | push16 (value : Half)
  /-- PUSH32, port A (R145). -/
  | push32 (value : Word)
  /-- POP16 (R146). -/
  | pop16
  /-- POP32 (R147). -/
  | pop32
  /-- PUSHA16 (R148). -/
  | pusha16
  /-- PUSHA32 (R149). -/
  | pusha32
  /-- FXSAVE, port A (42_fxstate.md R174). -/
  | fxsave (addr : Word)
  /-- FXRSTOR, port A (R175). -/
  | fxrstor (addr : Word)
deriving DecidableEq, Repr

/-- The eight base conditions of 40_flags.md §2, in the order of `CC[3:1]` (R84, R116). -/
inductive Cond where
  | o | b | z | be | s | p | l | le
deriving DecidableEq, Repr

/-- The number of a base condition, its `CC[3:1]` (R84). -/
def Cond.number : Cond → BitVec 3
  | .o => 0 | .b => 1 | .z => 2 | .be => 3 | .s => 4 | .p => 5 | .l => 6 | .le => 7

/-- The `CC` field of a condition or of its negation (R84). -/
def Cond.code (c : Cond) (negated : Bool) : BitVec 4 :=
  c.number ++ BitVec.ofBool negated

/-- A numeric literal of the assembler (R88). -/
def asmLiteral {w : Nat} (v : BitVec w) : String :=
  "0x" ++ String.ofList (Nat.toDigits 16 v.toNat)

/-- The names of the sixteen condition codes in assembler text (R88). -/
def asmConditionNames : List String :=
  ["o", "no", "b", "nb", "z", "nz", "be", "nbe", "s", "ns", "p", "np", "l", "nl", "le", "nle"]

/-- The assembler line of a command (R88). -/
def Instr.asm : Instr → String
  | .getcf => "getcf" | .getpf => "getpf" | .getaf => "getaf"
  | .getzf => "getzf" | .getsf => "getsf" | .getof => "getof"
  | .testO => "test_o" | .testB => "test_b" | .testZ => "test_z" | .testS => "test_s"
  | .testP => "test_p" | .testBe => "test_be" | .testL => "test_l" | .testLe => "test_le"
  | .evalcc cc => "evalcc " ++ asmConditionNames.getD cc.toNat ""
  | .snap a b c d e f => "snap " ++ ", ".intercalate [asmLiteral a, asmLiteral b, asmLiteral c, asmLiteral d, asmLiteral e, asmLiteral f]
  | .setflags v m => "setflags " ++ asmLiteral v ++ ", " ++ asmLiteral m
  | .stackEa v => "stack_ea " ++ asmLiteral v
  | .stackAdjust v => "stack_adjust " ++ asmLiteral v
  | .push16 v => "push16 " ++ asmLiteral v
  | .push32 v => "push32 " ++ asmLiteral v
  | .pop16 => "pop16" | .pop32 => "pop32" | .pusha16 => "pusha16" | .pusha32 => "pusha32"
  | .fxsave a => "fxsave " ++ asmLiteral a
  | .fxrstor a => "fxrstor " ++ asmLiteral a

/-- The pseudo-instruction `test_<cc>` of a negated condition (R88): it is `evalcc <cc>`. -/
def Instr.testNot (c : Cond) : Instr := .evalcc (c.code true)

end Sys2Proof
end

