-- ==== Sys2Proof/WellFormed.lean ====
section
/-! DEFINITION. The operand contract of a command (spec/30_encoding.md R85). -/

namespace Sys2Proof

/-- "`op_size` must be 7, 15 or 31" (R85, 10_state.md R30). -/
def legalOpSize (e : Word) : Bool := e == 7 || e == 15 || e == 31

/-- The operands of a command keep the contract of R85. The field widths of `Instr` are right by their types; the one other
clause is the operand size of SNAP_WRITE. -/
def Instr.wf : Instr → Bool
  | .snap _ _ _ _ opSize _ => legalOpSize opSize
  | .getcf | .getpf | .getaf | .getzf | .getsf | .getof => true
  | .testO | .testB | .testZ | .testS | .testP | .testBe | .testL | .testLe => true
  | .evalcc _ => true
  | .setflags _ _ => true
  | .stackEa _ | .stackAdjust _ => true
  | .push16 _ | .push32 _ | .pop16 | .pop32 | .pusha16 | .pusha32 => true
  | .fxsave _ | .fxrstor _ => true

end Sys2Proof
end

