-- ==== Sys2Proof/Decode.lean ====
section
/-! DEFINITION. The command word and its ports, the decoder and the encoder (spec/30_encoding.md R81 to R86). -/

namespace Sys2Proof

/-- The six input ports (R82). -/
structure Ports where
  a : Word
  b : Word
  c : Word
  d : Word
  e : Word
  f : Word
deriving DecidableEq, Repr

/-- A command as it is delivered: its word and its ports (R81, R82). -/
structure Command where
  word : Word
  ports : Ports
deriving DecidableEq, Repr

/-- Why a command word is `undefined_command` (R86, one constructor for each of its three conditions). Raised by `decode`,
safe: the model has fewer runs than a permissive implementation. -/
inductive Undefined where
  /-- "its `OPC` is not in rule R83". -/
  | unlistedOpc
  /-- "`RSV ≠ 0`". -/
  | reservedNotZero
  /-- "`CC ≠ 0` in a command other than EVAL_CC". -/
  | conditionNotZero
deriving DecidableEq, Repr

/-- `OPC`, bits 7:0 of the word (R81). -/
def opcField (w : Word) : BitVec 8 := w.extractLsb' 0 8

/-- `CC`, bits 11:8 of the word (R81). -/
def ccField (w : Word) : BitVec 4 := w.extractLsb' 8 4

/-- `RSV`, bits 31:12 of the word (R81). -/
def rsvField (w : Word) : BitVec 20 := w.extractLsb' 12 20

/-- The opcode map of R83, with each command's operands read from the `CC` field and the ports as R82 says. Ports a command does
not name are ignored, and so are bits 31:16 of A in PUSH16 (R85). -/
def opcodeMap (cc : BitVec 4) (p : Ports) : List (BitVec 8 × Instr) :=
  [ (0x10, .getcf), (0x11, .getpf), (0x12, .getaf), (0x13, .getzf), (0x14, .getsf), (0x15, .getof),
    (0x18, .testO), (0x19, .testB), (0x1A, .testZ), (0x1B, .testS),
    (0x1C, .testP), (0x1D, .testBe), (0x1E, .testL), (0x1F, .testLe),
    (0x20, .evalcc cc),
    (0x28, .snap p.a p.b p.c p.d p.e p.f), (0x29, .setflags p.a p.b),
    (0x30, .stackEa p.a), (0x31, .stackAdjust p.a),
    (0x32, .push16 (p.a.extractLsb' 0 16)), (0x33, .push32 p.a), (0x34, .pop16), (0x35, .pop32),
    (0x36, .pusha16), (0x37, .pusha32),
    (0x40, .fxsave p.a), (0x41, .fxrstor p.a) ]

/-- The command that an operation code names, if it is in the map. -/
def commandOf (opc : BitVec 8) (cc : BitVec 4) (p : Ports) : Option Instr := (opcodeMap cc p).lookup opc

/-- The decoder: total on every word and every port value, refusing exactly the words of R86. -/
def decode : Command → Except Undefined Instr
  | ⟨w, p⟩ =>
    match commandOf (opcField w) (ccField w) p with
    | none => .error .unlistedOpc
    | some i =>
      if rsvField w ≠ 0 then .error .reservedNotZero
      else if opcField w ≠ 0x20 ∧ ccField w ≠ 0 then .error .conditionNotZero
      else .ok i

/-- The word of a command: the `match` value of its row (R83), and for EVAL_CC the condition code at bits 11:8 (R81, R84). -/
def wordOf : Instr → Word
  | .getcf => 0x00000010 | .getpf => 0x00000011 | .getaf => 0x00000012
  | .getzf => 0x00000013 | .getsf => 0x00000014 | .getof => 0x00000015
  | .testO => 0x00000018 | .testB => 0x00000019 | .testZ => 0x0000001A | .testS => 0x0000001B
  | .testP => 0x0000001C | .testBe => 0x0000001D | .testL => 0x0000001E | .testLe => 0x0000001F
  | .evalcc cc => 0x00000020 ||| (cc.setWidth 32 <<< 8)
  | .snap _ _ _ _ _ _ => 0x00000028 | .setflags _ _ => 0x00000029
  | .stackEa _ => 0x00000030 | .stackAdjust _ => 0x00000031
  | .push16 _ => 0x00000032 | .push32 _ => 0x00000033 | .pop16 => 0x00000034 | .pop32 => 0x00000035
  | .pusha16 => 0x00000036 | .pusha32 => 0x00000037
  | .fxsave _ => 0x00000040 | .fxrstor _ => 0x00000041

/-- Port A alone carries a value. -/
def portA (v : Word) : Ports := { a := v, b := 0, c := 0, d := 0, e := 0, f := 0 }

/-- The port values that carry a command's operands (R82). The ports it does not name are driven with 0. -/
def portsOf : Instr → Ports
  | .snap a b c d e f => { a := a, b := b, c := c, d := d, e := e, f := f }
  | .setflags v m => { a := v, b := m, c := 0, d := 0, e := 0, f := 0 }
  | .stackEa v | .stackAdjust v | .push32 v | .fxsave v | .fxrstor v => portA v
  | .push16 v => portA (v.setWidth 32)
  | .getcf | .getpf | .getaf | .getzf | .getsf | .getof => portA 0
  | .testO | .testB | .testZ | .testS | .testP | .testBe | .testL | .testLe => portA 0
  | .evalcc _ | .pop16 | .pop32 | .pusha16 | .pusha32 => portA 0

/-- The encoder: a command's word and the ports that carry its operands (R81, R82). -/
def encode (i : Instr) : Command := { word := wordOf i, ports := portsOf i }

/-- The port values that stand beside a bare table word, which carries none (log 11): every port 0, but the operand-size port
E holds 31, since R85 admits only 7, 15 and 31 there. -/
def tablePorts : Ports := { a := 0, b := 0, c := 0, d := 0, e := 31, f := 0 }

/-- The command that a bare table word of `nbits` bits stands for. -/
def tableCommand (nbits w : Nat) : Command :=
  { word := BitVec.ofNat 32 (w % 2 ^ nbits), ports := tablePorts }

/-- What the decoder reads from a table word. A word that does not fit the 32 bits of R81 is no command. -/
def decodeTableWord (nbits w : Nat) : Option Instr :=
  if w % 2 ^ nbits < 2 ^ 32 then
    match decode (tableCommand nbits w) with
    | .ok i => some i
    | .error _ => none
  else none

end Sys2Proof
end

