-- ==== Sys2Proof/Machine/State.lean ====
section
/-! DEFINITION. The state of the block (spec/10_state.md R20), the inputs it samples, its response, and the state after
reset (spec/70_reset_and_hazards.md R230). -/

namespace Sys2Proof.Machine

/-- The legal values of `last_op_size` (R30): the index of the sign bit of an 8-bit, 16-bit or 32-bit operation. -/
inductive OpSize where
  | byte | half | word
deriving DecidableEq, Repr

/-- The flag state (R26 to R30). -/
structure FlagState where
  /-- `flags`, the stored status-flag word (R26). -/
  flags : Word
  /-- `flags_changed`, the dirty mask (R27). -/
  flagsChanged : Word
  /-- `last_op1` (R29). -/
  lastOp1 : Word
  /-- `last_op2` (R29). -/
  lastOp2 : Word
  /-- `last_result` (R29). -/
  lastResult : Word
  /-- `last_add_result` (R29). -/
  lastAddResult : Word
  /-- `last_op_size` (R30). -/
  lastOpSize : OpSize
deriving DecidableEq, Repr

/-- The x87 and SSE state that the codec moves (R34 to R41). -/
structure FxState where
  /-- `fcw` (R34). -/
  fcw : BitVec 16
  /-- `fsw_rest`, the status word without its TOP field (R35). -/
  fswRest : BitVec 16
  /-- `stack_ptr`, the TOP field (R36). -/
  stackPtr : BitVec 3
  /-- `stack_empty`, one bit per physical slot (R37). -/
  stackEmpty : BitVec 8
  /-- `fpu_opcode` (R38). -/
  fpuOpcode : BitVec 16
  /-- `fpu_ip` (R38). -/
  fpuIp : Word
  /-- `fpu_ip_selector` (R38). -/
  fpuIpSelector : BitVec 16
  /-- `fpu_dp` (R38). -/
  fpuDp : Word
  /-- `fpu_dp_selector` (R38). -/
  fpuDpSelector : BitVec 16
  /-- `st_phys[0..7]`, by physical slot (R39). -/
  stPhys : Vector (BitVec 80) 8
  /-- `xmm[0..7]` (R40). -/
  xmm : Vector (BitVec 128) 8
  /-- `mxcsr` (R41). -/
  mxcsr : Word
deriving DecidableEq, Repr

/-- The bytes of the memory subsystem that differ from `memDefault`, by rising address (20_memory.md R60). -/
abbrev Memory := List Host.Cell

/-- What a byte of memory that nothing has written reads as (log 7). -/
def memDefault : Byte := 0

/-- A range of addresses, both ends included. -/
structure Region where
  lo : Word
  hi : Word
deriving DecidableEq, Repr

/-- The kind of a faulting access (R12). -/
inductive Access where
  | read | write
deriving DecidableEq, Repr

/-- The fault signals of R201. -/
inductive FaultSignal where
  /-- `MemFault(a, acc)`. -/
  | memFault (addr : Word) (acc : Access)
  /-- `GP(code)`. -/
  | gp (code : BitVec 16)
deriving DecidableEq, Repr

/-- What the block last answered: `Ok` with the result port `Y`, or `Fault` with its signal (R200). -/
inductive Response where
  /-- No command has been performed yet (log 14). -/
  | idle
  /-- The last command ended `Ok` and drives `Y` (R82). -/
  | ok (y : Word)
  /-- The last command ended in this fault signal (R208). -/
  | fault (f : FaultSignal)
deriving DecidableEq, Repr

/-- One call of a collaborator primitive of R11, in the order of R68 and R71 (log 13). -/
inductive BusCall where
  | checkReadable (addr : Word) (len : Nat)
  | checkWritable (addr : Word) (len : Nat)
  | read (addr : Word) (n : Nat)
  | write (addr : Word) (bytes : List Byte)
deriving DecidableEq, Repr

/-- One draw for every element whose reset value R230 leaves unspecified (R231). -/
structure ResetValues where
  /-- `RESET_GPR`. -/
  gpr : Vector Word 8
  /-- `RESET_FLAGS`, and the bits of `flags` that the enclosing core owns. -/
  flags : Word
  /-- The snapshot, unspecified (R29). -/
  op1 : Word
  op2 : Word
  result : Word
  addResult : Word
  /-- `last_op_size`, unspecified (R30). -/
  opSize : OpSize
  /-- `RESET_STACK_SIZE_32`. -/
  stackSize32 : Bool
  /-- `RESET_FCW` to `RESET_MXCSR`. -/
  fx : FxState
deriving DecidableEq, Repr

/-- An act of the environment between two commands (log 2): what the rules say other units own or decide. -/
inductive EnvironmentAct where
  /-- The enclosing core writes a general register, which it owns (R21). -/
  | writeGpr (i : Fin 8) (v : Word)
  /-- The enclosing core writes the bits of `flags` outside STATUS_MASK, which it owns (R26). -/
  | writeOtherFlags (v : Word)
  /-- The enclosing core sets `stack_size_32` (R32). -/
  | setStackSize32 (b : Bool)
  /-- The segment unit's `segmentBase(SS)` changes (R33). -/
  | setSsBase (v : Word)
  /-- The FPU and SSE units execute and leave these register values (R34 to R41). -/
  | writeFx (v : FxState)
  /-- The enclosing core writes a byte of memory (R71). -/
  | writeByte (addr : Word) (v : Byte)
  /-- The memory subsystem changes which bytes are readable and writable (R64, R71). -/
  | setPermissions (unreadable unwritable : List Region)
  /-- The external reset, with a draw for every unspecified element (R230, R231). -/
  | reset (r : ResetValues)
deriving DecidableEq, Repr

/-- What the outside world does next: the sequencer issues a command, or the environment acts (R5, R25). -/
inductive Input where
  | command (c : Command)
  | environment (e : EnvironmentAct)
deriving DecidableEq, Repr

/-- The whole machine. The first four fields are the block's state `S` of R20. -/
structure State where
  /-- `gpr[0..7]`: EAX, ECX, EDX, EBX, ESP, EBP, ESI, EDI (R21). -/
  gpr : Vector Word 8
  /-- The flag state (R26 to R30). -/
  fl : FlagState
  /-- `stack_size_32` (R32). -/
  stackSize32 : Bool
  /-- The x87 and SSE state (R34 to R41). -/
  fx : FxState
  /-- The input `ss_base` (R33). -/
  ssBase : Word
  /-- The contents of memory (R60). -/
  mem : Memory
  /-- The bytes that are not readable (R64): every byte that one of these ranges covers. -/
  unreadable : List Region
  /-- The bytes that are not writable (R64). -/
  unwritable : List Region
  /-- The OPEN parameters (R6), constant over a run. -/
  params : Params
  /-- What the sequencer and the environment do from here on, first thing first (log 1, log 2). -/
  inputs : List Input
  /-- The outcome of the last command (R200). -/
  response : Response
  /-- The collaborator calls made so far, first call first (log 13). -/
  bus : List BusCall
  /-- How many `FAULT_ADDR` draws have been used (log 4). -/
  draws : Nat
deriving DecidableEq, Repr

/-- The reasons for which the machine stops with a fault: none. A fault of R201 is signalled in `State.response` and the block
takes the next command (R208, R209), so no step of the model ends in a machine fault (log 3). -/
inductive Fault
deriving DecidableEq, Repr

/-- The refusals: the closed list of R204, and the host's name for an instruction without a meaning. -/
inductive Refusal where
  /-- Raised by `exec` for an instruction that has no meaning yet; safe. No arm of this model raises it. -/
  | notModelled (mnemonic : String)
  /-- `undefined_command`, raised by `step` for a word that `decode` refuses (R86); safe. -/
  | undefinedCommand
  /-- `bad_op_size`, raised by SNAP_WRITE (R117); safe. -/
  | badOpSize
deriving DecidableEq, Repr

/-- The bits of a status word outside the TOP field (R35). -/
def fswRestMask : BitVec 16 := 0xC7FF

/-- The external reset (R230): every element of the block's state takes its reset value. `flags_changed` takes 0, and every other
element the drawn value, `fsw_rest` subject to its invariant. What is no state of the block stays (log 12). -/
def State.applyReset (r : ResetValues) (s : State) : State :=
  { s with
    gpr := r.gpr
    fl := { flags := r.flags, flagsChanged := 0, lastOp1 := r.op1, lastOp2 := r.op2, lastResult := r.result,
            lastAddResult := r.addResult, lastOpSize := r.opSize }
    stackSize32 := r.stackSize32
    fx := { r.fx with fswRest := r.fx.fswRest &&& fswRestMask } }

/-- The values that the model names for a draw (log 5: the x86 power-on values, those that 10_state.md gives as informative and
for the EFLAGS bits of the enclosing core the family's; log 6: 0 and the word size where neither gives one). -/
def ResetValues.named : ResetValues :=
  { gpr := Vector.replicate 8 0
    flags := 0x00000002
    op1 := 0, op2 := 0, result := 0, addResult := 0, opSize := .word
    stackSize32 := false
    fx := { fcw := 0x037F, fswRest := 0, stackPtr := 0, stackEmpty := 0xFF, fpuOpcode := 0, fpuIp := 0, fpuIpSelector := 0,
            fpuDp := 0, fpuDpSelector := 0, stPhys := Vector.replicate 8 0, xmm := Vector.replicate 8 0,
            mxcsr := 0x00001F80 } }

/-- The machine right after a reset that drew the values `r`: memory with nothing listed, every byte readable and writable,
`ss_base` 0, nothing issued and nothing answered. -/
def State.resetWith (r : ResetValues) : State :=
  State.applyReset r
    { gpr := r.gpr
      fl := { flags := 0, flagsChanged := 0, lastOp1 := 0, lastOp2 := 0, lastResult := 0, lastAddResult := 0,
              lastOpSize := .word }
      stackSize32 := false
      fx := r.fx
      ssBase := 0
      mem := []
      unreadable := []
      unwritable := []
      params := Params.recommended
      inputs := []
      response := .idle
      bus := []
      draws := 0 }

/-- The machine right after reset, at the values the model names. -/
def State.reset : State := State.resetWith ResetValues.named

end Sys2Proof.Machine
end

