-- ==== Sys2Proof/Machine/Flags.lean ====
section
/-! DEFINITION. Flag computation: the six getters, the predicates and the condition codes as functions of the flag state
(spec/40_flags.md R100 to R116; spec/10_state.md R26 to R30). -/

namespace Sys2Proof.Machine

/-- The six status flags (R26). -/
inductive StatusFlag where
  | cf | pf | af | zf | sf | of
deriving DecidableEq, Repr

/-- All six, in the order of their bit positions. -/
def allFlags : List StatusFlag := [.cf, .pf, .af, .zf, .sf, .of]

/-- The bit position of a flag (R26). -/
def flagPos : StatusFlag → Nat
  | .cf => 0 | .pf => 2 | .af => 4 | .zf => 6 | .sf => 7 | .of => 11

/-- The mask of a flag (R26). -/
def flagMask : StatusFlag → Word
  | .cf => 0x001 | .pf => 0x004 | .af => 0x010 | .zf => 0x040 | .sf => 0x080 | .of => 0x800

/-- `STATUS_MASK`, the union of the six masks (R26). -/
def statusMask : Word := 0x8D5

/-- The bit index that an operand size stands for (R30). -/
def opSizeBit : OpSize → Nat
  | .byte => 7 | .half => 15 | .word => 31

/-- The operand size that a value of port E stands for, if it is legal (R30, R117). -/
def opSizeOf (e : Word) : Option OpSize :=
  if e = 7 then some .byte else if e = 15 then some .half else if e = 31 then some .word else none

/-- `b2w` (00_scope.md R9). -/
def b2w (b : Bool) : Word := if b then 1 else 0

/-- R101. -/
def computedCF (f : FlagState) : Word :=
  ((f.lastOp1 ^^^ ((f.lastOp1 ^^^ f.lastOp2) &&& (f.lastOp2 ^^^ f.lastAddResult))) >>> opSizeBit f.lastOpSize) &&& 1

/-- R102: the table constant 0x9669, shifted by 2 to the parity bit, indexed by the fold of the low byte. -/
def computedPF (f : FlagState) : Word :=
  (((0x9669 : Word) <<< 2) >>> ((f.lastResult ^^^ (f.lastResult >>> 4)) &&& 0xF).toNat) &&& 0x004

/-- R103. -/
def computedAF (f : FlagState) : Word :=
  (f.lastOp1 ^^^ f.lastOp2 ^^^ f.lastAddResult) &&& 0x010

/-- R104. -/
def computedZF (f : FlagState) : Word :=
  ((~~~f.lastResult &&& (f.lastResult - 1)) >>> opSizeBit f.lastOpSize) &&& 1

/-- R105. -/
def computedSF (f : FlagState) : Word :=
  (f.lastResult >>> opSizeBit f.lastOpSize) &&& 1

/-- R106. -/
def computedOF (f : FlagState) : Word :=
  (((f.lastOp1 ^^^ f.lastAddResult) &&& (f.lastOp2 ^^^ f.lastAddResult)) >>> opSizeBit f.lastOpSize) &&& 1

/-- `computed_X` (R100). -/
def computedFlag : StatusFlag → FlagState → Word
  | .cf => computedCF | .pf => computedPF | .af => computedAF
  | .zf => computedZF | .sf => computedSF | .of => computedOF

/-- `raw_X` (R100): the computed path when the flag's dirty bit is set, else the stored path. -/
def rawFlag (x : StatusFlag) (f : FlagState) : Word :=
  if f.flagsChanged &&& flagMask x ≠ 0 then computedFlag x f else f.flags &&& flagMask x

/-- `flagval_X` (R100): the architectural value of the flag (R28). -/
def flagVal (x : StatusFlag) (f : FlagState) : Bool := rawFlag x f != 0

/-- The predicates of R108 to R115. -/
def condHolds : Cond → FlagState → Bool
  | .o, f => flagVal .of f
  | .b, f => flagVal .cf f
  | .z, f => flagVal .zf f
  | .be, f => flagVal .cf f || flagVal .zf f
  | .s, f => flagVal .sf f
  | .p, f => flagVal .pf f
  | .l, f => flagVal .sf f != flagVal .of f
  | .le, f => flagVal .zf f || (flagVal .sf f != flagVal .of f)

/-- The base condition that `CC[3:1]` selects (R84, R116). -/
def condBase (cc : BitVec 4) : Cond :=
  match (cc.extractLsb' 1 3).toNat with
  | 0 => .o
  | 1 => .b
  | 2 => .z
  | 3 => .be
  | 4 => .s
  | 5 => .p
  | 6 => .l
  | _ => .le

/-- The condition of a `CC` field: the base, inverted when `CC[0] = 1` (R84, R116). -/
def evalCondition (cc : BitVec 4) (f : FlagState) : Bool :=
  condHolds (condBase cc) f ^^ cc.getLsbD 0

/-- The flag state after SNAP_WRITE with a legal operand size (R117). -/
def loadSnapshot (op1 op2 result addResult : Word) (n : OpSize) (dirty : Word) (f : FlagState) : FlagState :=
  { f with
    lastOp1 := op1
    lastOp2 := op2
    lastResult := result
    lastAddResult := addResult
    lastOpSize := n
    flagsChanged := dirty &&& statusMask }

/-- The flag state after FLAGS_WRITE (R118). -/
def storeFlags (value mask : Word) (f : FlagState) : FlagState :=
  let m := mask &&& statusMask
  { f with
    flags := (f.flags &&& ~~~m) ||| (value &&& m)
    flagsChanged := f.flagsChanged &&& ~~~m }

/-- The flag state after the enclosing core writes the bits of `flags` outside STATUS_MASK (R26). -/
def storeOtherFlags (value : Word) (f : FlagState) : FlagState :=
  { f with flags := (f.flags &&& statusMask) ||| (value &&& ~~~statusMask) }

/-- The word that `materialize` writes back: every flag's value at its position (30_encoding.md R88). -/
def materializedFlags (f : FlagState) : Word :=
  allFlags.foldr (fun x w => (b2w (flagVal x f) <<< flagPos x) ||| w) 0

end Sys2Proof.Machine
end

