-- ==== Sys2Proof/Machine/Operands.lean ====
section
/-! DEFINITION. Register views, stack addresses, byte order and the fields of the 512-byte image (spec/10_state.md R22, R35,
R39; spec/20_memory.md R62, R63; spec/41_stack.md R140 to R142; spec/42_fxstate.md R170 to R173). -/

namespace Sys2Proof.Machine

/-- The index of ESP (10_state.md R21). -/
def espIndex : Fin 8 := 4

/-- `gpr16[i]` (R22). -/
def gpr16 (s : State) (i : Fin 8) : Half := s.gpr[i].extractLsb' 0 16

/-- `gpr[i] <- v` (R10). -/
def setGpr (i : Fin 8) (v : Word) (s : State) : State := { s with gpr := s.gpr.set i.val v }

/-- `gpr16[i] <- v`: bits 31:16 are kept (R22). -/
def setGpr16 (i : Fin 8) (v : Half) (s : State) : State := setGpr i (s.gpr[i].extractLsb' 16 16 ++ v) s

/-- `sp_val` (R140). -/
def spVal (s : State) : Word :=
  if s.stackSize32 then s.gpr[espIndex] else (gpr16 s espIndex).setWidth 32

/-- `ea`, the effective address (R141). -/
def ea (s : State) (off : Word) : Word :=
  if s.stackSize32 then s.ssBase + s.gpr[espIndex] + off
  else s.ssBase + (gpr16 s espIndex + off.extractLsb' 0 16).setWidth 32

/-- `adjust` (R142). -/
def adjust (amt : Word) (s : State) : State :=
  if s.stackSize32 then setGpr espIndex (s.gpr[espIndex] + amt) s
  else setGpr16 espIndex (gpr16 s espIndex + amt.extractLsb' 0 16) s

/-- The low `n` bytes of a value, the least significant first (R62). -/
def toBytes {w : Nat} : Nat → BitVec w → List Byte
  | 0, _ => []
  | n + 1, v => v.setWidth 8 :: toBytes n (v >>> 8)

/-- The value that little-endian bytes make (R62). -/
def fromBytes (w : Nat) : List Byte → BitVec w
  | [] => 0
  | b :: bs => b.setWidth w ||| (fromBytes w bs <<< 8)

/-- The addresses `a, a+1, …, a+n-1`, each modulo 2^32 (R63). -/
def addrsFrom (a : Word) : Nat → List Word
  | 0 => []
  | n + 1 => a :: addrsFrom (a + 1#32) n

/-- `status_word` (R35). -/
def statusWord (x : FxState) : BitVec 16 :=
  (x.fswRest &&& fswRestMask) ||| (x.stackPtr.setWidth 16 <<< 11)

/-- The `fsw_rest` part of `split_status` (R35). -/
def splitRest (w : BitVec 16) : BitVec 16 := w &&& fswRestMask

/-- The `stack_ptr` part of `split_status`: bits 13:11 (R35). -/
def splitTop (w : BitVec 16) : BitVec 3 := w.extractLsb' 11 3

/-- The indices 0 to 7, in increasing order (R13). -/
def indices : List (Fin 8) := [0, 1, 2, 3, 4, 5, 6, 7]

/-- The physical slot of logical register ST(i): `(stack_ptr + i) mod 8` (R39, R171). -/
def physSlot (top : BitVec 3) (i : Fin 8) : Fin 8 := ⟨(top.toNat + i.val) % 8, Nat.mod_lt _ (by decide)⟩

/-- Logical register ST(i) (R39). -/
def logicalST (x : FxState) (i : Fin 8) : BitVec 80 := x.stPhys[physSlot x.stackPtr i]

/-- The writes of FXSAVE, in the order of R174: each is an offset and its bytes. An ST value is an 8-byte write and a 2-byte write
(R172), an XMM register one 16-byte write (R173). -/
def fxImage (mask : Word) (x : FxState) : List (Nat × List Byte) :=
  [ (0, toBytes 2 x.fcw),
    (2, toBytes 2 (statusWord x)),
    (4, toBytes 1 (~~~x.stackEmpty)),
    (6, toBytes 2 x.fpuOpcode),
    (8, toBytes 4 x.fpuIp),
    (12, toBytes 2 x.fpuIpSelector),
    (16, toBytes 4 x.fpuDp),
    (20, toBytes 2 x.fpuDpSelector),
    (24, toBytes 4 x.mxcsr),
    (28, toBytes 4 mask) ]
  ++ indices.flatMap (fun i =>
      [ (32 + 16 * i.val, toBytes 8 ((logicalST x i).extractLsb' 0 64)),
        (40 + 16 * i.val, toBytes 2 ((logicalST x i).extractLsb' 64 16)) ])
  ++ indices.map (fun k => (160 + 16 * k.val, toBytes 16 x.xmm[k]))

/-- The reads of FXRSTOR after the read of MXCSR, in the order of R175: each is an offset and a width in bytes. -/
def fxReads : List (Nat × Nat) :=
  [(0, 2), (2, 2), (4, 1), (6, 2), (8, 4), (12, 2), (16, 4), (20, 2)]
  ++ indices.flatMap (fun i => [(32 + 16 * i.val, 8), (40 + 16 * i.val, 2)])
  ++ indices.map (fun k => (160 + 16 * k.val, 16))

/-- The bytes that were read at an offset. -/
def fieldBytes (off : Nat) : List (Nat × List Byte) → List Byte
  | [] => []
  | (o, bs) :: rest => if o = off then bs else fieldBytes off rest

/-- The value of a field that was read. -/
def fieldOf (w : Nat) (off : Nat) (img : List (Nat × List Byte)) : BitVec w := fromBytes w (fieldBytes off img)

/-- `load80` of slot i (R172). -/
def slotOf (i : Fin 8) (img : List (Nat × List Byte)) : BitVec 80 :=
  fieldOf 16 (40 + 16 * i.val) img ++ fieldOf 64 (32 + 16 * i.val) img

/-- The eight `st_phys` entries after the assignments of R175, which place slot i by the restored `stack_ptr` (R171). -/
def placeSlots (top : BitVec 3) (img : List (Nat × List Byte)) (old : Vector (BitVec 80) 8) : Vector (BitVec 80) 8 :=
  indices.foldl (fun v (i : Fin 8) => v.set (physSlot top i).val (slotOf i img)) old

/-- The eight XMM registers after the assignments of R175. -/
def placeXmm (img : List (Nat × List Byte)) (old : Vector (BitVec 128) 8) : Vector (BitVec 128) 8 :=
  indices.foldl (fun v (k : Fin 8) => v.set k.val (fieldOf 128 (160 + 16 * k.val) img)) old

/-- The FPU and SSE state after FXRSTOR's assignments (R175). With `quirk`, the selector field is written to `fpu_ip` and
`fpu_ip_selector` is kept (R177). -/
def fxRestored (quirk : Bool) (newMxcsr : Word) (img : List (Nat × List Byte)) (old : FxState) : FxState :=
  let top := splitTop (fieldOf 16 2 img)
  { fcw := fieldOf 16 0 img
    fswRest := splitRest (fieldOf 16 2 img)
    stackPtr := top
    stackEmpty := ~~~(fieldOf 8 4 img)
    fpuOpcode := fieldOf 16 6 img
    fpuIp := if quirk then (fieldOf 16 12 img).setWidth 32 else fieldOf 32 8 img
    fpuIpSelector := if quirk then old.fpuIpSelector else fieldOf 16 12 img
    fpuDp := fieldOf 32 16 img
    fpuDpSelector := fieldOf 16 20 img
    stPhys := placeSlots top img old.stPhys
    xmm := placeXmm img old.xmm
    mxcsr := newMxcsr }

/-- `mxcsr_reserved` (R176). -/
def mxcsrReserved (mask v : Word) : Bool := v &&& ~~~mask != 0

end Sys2Proof.Machine
end

