-- ==== Sys2Proof/Machine/Ops.lean ====
section
/-! DEFINITION. The shared operations: memory bytes and permissions, the primitives of spec/00_scope.md R11 and R12, ending a
command with its result or its fault (spec/60_exceptions.md R200, R208), and the acts of the environment. -/

namespace Sys2Proof.Machine

/-- The answer type of a command and of a step. -/
abbrev Answer := Host.Outcome State Fault Refusal

/-- Where a primitive or a part of a command stands (R12): it went on with a value, or it raised a fault signal. Either way the
state is the one it leaves. -/
inductive Progress (α : Type) where
  | going (v : α) (s : State)
  | raised (f : FaultSignal) (s : State)
deriving Repr

/-- Go on after a primitive unless it raised: "A `raise` ends the pseudocode at that point" (R12). -/
def andThen {α β : Type} (p : Progress α) (k : α → State → Progress β) : Progress β :=
  match p with
  | .going v s => k v s
  | .raised f s => .raised f s

/-! ### Memory bytes -/

/-- The canonical form of memory: addresses strictly rising and below 2^32, no entry equal to what an unlisted byte reads as. -/
def Memory.wf (m : Memory) : Bool :=
  decide (m.Pairwise (fun c d => c.1 < d.1)) && m.all (fun c => decide (c.1 < 2 ^ 32) && c.2 != memDefault)

/-- The byte at an address. -/
def memGet : Memory → Nat → Byte
  | [], _ => memDefault
  | (k, b) :: m, a => if k = a then b else memGet m a

/-- Put an entry in its place. -/
def memInsert : Memory → Nat → Byte → Memory
  | [], a, v => [(a, v)]
  | (k, b) :: m, a, v => if a < k then (a, v) :: (k, b) :: m else (k, b) :: memInsert m a v

/-- Write one byte and keep the canonical form. -/
def memSet (m : Memory) (a : Nat) (v : Byte) : Memory :=
  let rest := m.filter (fun c => c.1 != a)
  if v = memDefault then rest else memInsert rest a v

/-- The `n` bytes at `a, a+1, …` modulo 2^32, the lowest first (20_memory.md R62, R63). -/
def loadBytes (m : Memory) (a : Word) : Nat → List Byte
  | 0 => []
  | n + 1 => memGet m a.toNat :: loadBytes m (a + 1#32) n

/-- Write bytes at `a, a+1, …` modulo 2^32 (R62, R63). -/
def storeBytes (m : Memory) (a : Word) : List Byte → Memory
  | [] => m
  | b :: bs => storeBytes (memSet m a.toNat b) (a + 1#32) bs

/-! ### Permissions -/

/-- A range covers an address. -/
def covers (r : Region) (a : Word) : Bool := decide (r.lo ≤ a) && decide (a ≤ r.hi)

/-- The byte is readable (R64). -/
def byteReadable (s : State) (a : Word) : Bool := !(s.unreadable.any (covers · a))

/-- The byte is writable (R64). -/
def byteWritable (s : State) (a : Word) : Bool := !(s.unwritable.any (covers · a))

/-- The bytes of `a .. a+n-1` that are not readable: for each unreadable range those that it covers. -/
def badReads (s : State) (a : Word) (n : Nat) : List Word := s.unreadable.flatMap fun r => (addrsFrom a n).filter (covers r)

/-- The bytes of `a .. a+n-1` that are not writable: for each unwritable range those that it covers. -/
def badWrites (s : State) (a : Word) (n : Nat) : List Word := s.unwritable.flatMap fun r => (addrsFrom a n).filter (covers r)

/-! ### The primitives -/

/-- Record a collaborator call (log 13). -/
def record (c : BusCall) (s : State) : State := { s with bus := s.bus ++ [c] }

/-- `FAULT_ADDR`: the drawn one of the failing bytes (R64; log 4). -/
def pickFaultAddr (bad : List Word) (n : Nat) : Word := bad.getD (Config.faultDraw n % bad.length) 0

/-- `raise MemFault(FAULT_ADDR, acc)` when some byte failed the permission, else go on (R64, R65). A raise uses up one draw. -/
def faultUnlessAll (bad : List Word) (acc : Access) (s : State) : Progress Unit :=
  match bad with
  | [] => .going () s
  | _ :: _ => .raised (.memFault (pickFaultAddr bad s.draws) acc) { s with draws := s.draws + 1 }

/-- `CheckReadable(a, len)` (R11, R64). -/
def checkReadable (a : Word) (len : Nat) (s : State) : Progress Unit :=
  faultUnlessAll (badReads s a len) .read (record (.checkReadable a len) s)

/-- `CheckWritable(a, len)` (R11, R64). -/
def checkWritable (a : Word) (len : Nat) (s : State) : Progress Unit :=
  faultUnlessAll (badWrites s a len) .write (record (.checkWritable a len) s)

/-- Read `n` bytes (R11, R65). -/
def readBytes (a : Word) (n : Nat) (s : State) : Progress (List Byte) :=
  andThen (faultUnlessAll (badReads s a n) .read (record (.read a n) s)) fun _ s => .going (loadBytes s.mem a n) s

/-- Write bytes (R11); "A faulting `MemWrite` writes none of its bytes" (R65). -/
def writeBytes (a : Word) (bs : List Byte) (s : State) : Progress Unit :=
  andThen (faultUnlessAll (badWrites s a bs.length) .write (record (.write a bs) s)) fun _ s =>
    .going () { s with mem := storeBytes s.mem a bs }

/-- `MemRead(a, w/8)` as a `w`-bit value (R11). -/
def memRead (w : Nat) (a : Word) (s : State) : Progress (BitVec w) :=
  andThen (readBytes a (w / 8) s) fun bs s => .going (fromBytes w bs) s

/-- `MemWrite(a, n, v)` (R11). -/
def memWrite {w : Nat} (a : Word) (n : Nat) (v : BitVec w) (s : State) : Progress Unit :=
  writeBytes a (toBytes n v) s

/-- A list of writes at offsets from a base address, one after the other (42_fxstate.md R174). -/
def writeFields (a : Word) : List (Nat × List Byte) → State → Progress Unit
  | [], s => .going () s
  | (off, bs) :: rest, s => andThen (writeBytes (a + BitVec.ofNat 32 off) bs s) fun _ s => writeFields a rest s

/-- A list of reads at offsets from a base address, one after the other (R175): the bytes read at each offset. -/
def readFields (a : Word) : List (Nat × Nat) → State → Progress (List (Nat × List Byte))
  | [], s => .going [] s
  | (off, n) :: rest, s =>
    andThen (readBytes (a + BitVec.ofNat 32 off) n s) fun bs s =>
      andThen (readFields a rest s) fun img s => .going ((off, bs) :: img) s

/-! ### Push and pop bodies -/

/-- The body of a push of `n` bytes (41_stack.md R144, R145): write below the pointer, then commit the pointer. -/
def pushValue {w : Nat} (n : Nat) (v : BitVec w) (s : State) : Progress Unit :=
  andThen (memWrite (ea s (-(BitVec.ofNat 32 n))) n v s) fun _ s => .going () (adjust (-(BitVec.ofNat 32 n)) s)

/-- A pop of a `w`-bit value (R146, R147): read at the pointer, then commit the pointer. -/
def popValue (w : Nat) (s : State) : Progress (BitVec w) :=
  andThen (memRead w (s.ssBase + spVal s) s) fun v s => .going v (adjust (BitVec.ofNat 32 (w / 8)) s)

/-- Pushes of `n` bytes each, one after the other (R148, R149). -/
def pushValues {w : Nat} (n : Nat) : List (BitVec w) → State → Progress Unit
  | [], s => .going () s
  | v :: vs, s => andThen (pushValue n v s) fun _ s => pushValues n vs s

/-- `align_check` (42_fxstate.md R178). -/
def alignCheck (a : Word) (s : State) : Progress Unit :=
  if s.params.fxAlignCheck ∧ a.toNat % 16 ≠ 0 then .raised (.gp 0) s else .going () s

/-! ### Ending a command -/

/-- `Y <- y` (R13, R82): the command ends `Ok` (R200). -/
def driveResult (y : Word) (s : State) : State := { s with response := .ok y }

/-- TAKING AN EXCEPTION (60_exceptions.md R208): "the block saves nothing, changes no mode and does not transfer control. It signals
the fault". There is no return from it beside it: "The block has no return-from-trap command and restores nothing" (R209). -/
def takeFault (f : FaultSignal) (s : State) : State := { s with response := .fault f }

/-- A command's end: `Ok(S', Y)` or `Fault(f, S'')` (R200). Both are next states, since the block takes the next command after
either (R209; log 3). -/
def finish (p : Progress Word) : Answer :=
  match p with
  | .going y s => .next (driveResult y s)
  | .raised f s => .next (takeFault f s)

/-- The end of a command that defines no result: it "drives `Y = 0`" (R82). -/
def finishNoResult (p : Progress Unit) : Answer := finish (andThen p fun _ s => .going 0 s)

/-! ### The environment between commands -/

/-- The effect of an act of the environment (log 2). -/
def environmentAct (e : EnvironmentAct) (s : State) : State :=
  match e with
  | .writeGpr i v => setGpr i v s
  | .writeOtherFlags v => { s with fl := storeOtherFlags v s.fl }
  | .setStackSize32 b => { s with stackSize32 := b }
  | .setSsBase v => { s with ssBase := v }
  | .writeFx v => { s with fx := { v with fswRest := splitRest v.fswRest } }
  | .writeByte a v => { s with mem := memSet s.mem a.toNat v }
  | .setPermissions r w => { s with unreadable := r, unwritable := w }
  | .reset r => s.applyReset r

end Sys2Proof.Machine
end

