-- ==== Sys2Proof/Machine/Codec.lean ====
section
/-! DEFINITION. The FPU/SSE extended-state codec (spec/42_fxstate.md R174, R175). -/

namespace Sys2Proof.Machine

/-- FXSAVE (R174). -/
def execFxsave (addr : Word) (s : State) : Answer :=
  finishNoResult
    (andThen (alignCheck addr s) fun _ s =>
      andThen (checkWritable addr 512 s) fun _ s =>
        writeFields addr (fxImage s.params.mxcsrMask s.fx) s)

/-- FXRSTOR (R175): the checks, then the one read of MXCSR, then the other reads, then all assignments together. -/
def execFxrstor (addr : Word) (s : State) : Answer :=
  finishNoResult
    (andThen (alignCheck addr s) fun _ s =>
      andThen (checkReadable addr 512 s) fun _ s =>
        andThen (memRead 32 (addr + 24) s) fun newMxcsr s =>
          if mxcsrReserved s.params.mxcsrMask newMxcsr then .raised (.gp Config.gpCodeMxcsr) s
          else andThen (readFields addr fxReads s) fun img s =>
            .going () { s with fx := fxRestored s.params.fxrstorIpQuirk newMxcsr img s.fx })

end Sys2Proof.Machine
end

