-- ==== Sys2Proof/Machine/FlagReads.lean ====
section
/-! DEFINITION. The commands that read flags: the getters, the predicates and EVAL_CC (spec/40_flags.md R101 to R116). Each drives
its result and changes nothing (R107). -/

namespace Sys2Proof.Machine

/-- A command that only drives a result. -/
def answerWith (y : Word) (s : State) : Answer := finish (.going y s)

/-- GET_CF (R101). -/
def execGetcf (s : State) : Answer := answerWith (rawFlag .cf s.fl) s

/-- GET_PF (R102). -/
def execGetpf (s : State) : Answer := answerWith (rawFlag .pf s.fl) s

/-- GET_AF (R103). -/
def execGetaf (s : State) : Answer := answerWith (rawFlag .af s.fl) s

/-- GET_ZF (R104). -/
def execGetzf (s : State) : Answer := answerWith (rawFlag .zf s.fl) s

/-- GET_SF (R105). -/
def execGetsf (s : State) : Answer := answerWith (rawFlag .sf s.fl) s

/-- GET_OF (R106). -/
def execGetof (s : State) : Answer := answerWith (rawFlag .of s.fl) s

/-- TEST_O (R108). -/
def execTestO (s : State) : Answer := answerWith (b2w (condHolds .o s.fl)) s

/-- TEST_B (R109). -/
def execTestB (s : State) : Answer := answerWith (b2w (condHolds .b s.fl)) s

/-- TEST_Z (R110). -/
def execTestZ (s : State) : Answer := answerWith (b2w (condHolds .z s.fl)) s

/-- TEST_S (R111). -/
def execTestS (s : State) : Answer := answerWith (b2w (condHolds .s s.fl)) s

/-- TEST_P (R112). -/
def execTestP (s : State) : Answer := answerWith (b2w (condHolds .p s.fl)) s

/-- TEST_BE (R113). -/
def execTestBe (s : State) : Answer := answerWith (b2w (condHolds .be s.fl)) s

/-- TEST_L (R114). -/
def execTestL (s : State) : Answer := answerWith (b2w (condHolds .l s.fl)) s

/-- TEST_LE (R115). -/
def execTestLe (s : State) : Answer := answerWith (b2w (condHolds .le s.fl)) s

/-- EVAL_CC (R116). -/
def execEvalcc (cc : BitVec 4) (s : State) : Answer := answerWith (b2w (evalCondition cc s.fl)) s

end Sys2Proof.Machine
end

