-- ==== Sys2Proof/Machine/FlagWrites.lean ====
section
/-! DEFINITION. The write ports of the flag engine (spec/40_flags.md R117, R118). -/

namespace Sys2Proof.Machine

/-- SNAP_WRITE (R117): an operand size that is not legal is refused before anything else (60_exceptions.md R206). -/
def execSnap (op1 op2 result addResult opSize dirtyMask : Word) (s : State) : Answer :=
  match opSizeOf opSize with
  | none => .refused .badOpSize
  | some n => finish (.going 0 { s with fl := loadSnapshot op1 op2 result addResult n dirtyMask s.fl })

/-- FLAGS_WRITE (R118). -/
def execSetflags (value mask : Word) (s : State) : Answer :=
  finish (.going 0 { s with fl := storeFlags value mask s.fl })

end Sys2Proof.Machine
end

