-- ==== Sys2Proof/Machine/Stack.lean ====
section
/-! DEFINITION. The stack unit (spec/41_stack.md R141 to R149). -/

namespace Sys2Proof.Machine

/-- STACK_EA (R141). -/
def execStackEa (offset : Word) (s : State) : Answer := finish (.going (ea s offset) s)

/-- STACK_ADJUST (R143). -/
def execStackAdjust (amount : Word) (s : State) : Answer := finish (.going 0 (adjust amount s))

/-- PUSH16 (R144). -/
def execPush16 (value : Half) (s : State) : Answer := finishNoResult (pushValue 2 value s)

/-- PUSH32 (R145). -/
def execPush32 (value : Word) (s : State) : Answer := finishNoResult (pushValue 4 value s)

/-- POP16 (R146): `Y <- zext_16(v)`. -/
def execPop16 (s : State) : Answer := finish (andThen (popValue 16 s) fun v s => .going (v.setWidth 32) s)

/-- POP32 (R147). -/
def execPop32 (s : State) : Answer := finish (popValue 32 s)

/-- PUSHA16 (R148): the eight 16-bit registers in index order. The original SP stands at index 4, read before any push. -/
def execPusha16 (s : State) : Answer :=
  finishNoResult (andThen (checkWritable (ea s (-16)) 16 s) fun _ t => pushValues 2 (indices.map (gpr16 s)) t)

/-- PUSHA32 (R149): the eight 32-bit registers in index order, the original ESP at index 4. -/
def execPusha32 (s : State) : Answer :=
  finishNoResult (andThen (checkWritable (ea s (-32)) 32 s) fun _ t => pushValues 4 (indices.map (fun i => s.gpr[i])) t)

end Sys2Proof.Machine
end

