-- ==== Sys2Proof/Machine/Dispatch.lean ====
section
/-! DEFINITION. The meaning of every command, one arm per constructor of `Instr` (spec/30_encoding.md R83). -/

namespace Sys2Proof.Machine

def exec (i : Instr) (s : State) : Host.Outcome State Fault Refusal :=
  match i with
  | .getcf => Sys2Proof.Machine.execGetcf s
  | .getpf => Sys2Proof.Machine.execGetpf s
  | .getaf => Sys2Proof.Machine.execGetaf s
  | .getzf => Sys2Proof.Machine.execGetzf s
  | .getsf => Sys2Proof.Machine.execGetsf s
  | .getof => Sys2Proof.Machine.execGetof s
  | .testO => Sys2Proof.Machine.execTestO s
  | .testB => Sys2Proof.Machine.execTestB s
  | .testZ => Sys2Proof.Machine.execTestZ s
  | .testS => Sys2Proof.Machine.execTestS s
  | .testP => Sys2Proof.Machine.execTestP s
  | .testBe => Sys2Proof.Machine.execTestBe s
  | .testL => Sys2Proof.Machine.execTestL s
  | .testLe => Sys2Proof.Machine.execTestLe s
  | .evalcc cc => Sys2Proof.Machine.execEvalcc cc s
  | .snap op1 op2 r ar n d => Sys2Proof.Machine.execSnap op1 op2 r ar n d s
  | .setflags v m => Sys2Proof.Machine.execSetflags v m s
  | .stackEa off => Sys2Proof.Machine.execStackEa off s
  | .stackAdjust amt => Sys2Proof.Machine.execStackAdjust amt s
  | .push16 v => Sys2Proof.Machine.execPush16 v s
  | .push32 v => Sys2Proof.Machine.execPush32 v s
  | .pop16 => Sys2Proof.Machine.execPop16 s
  | .pop32 => Sys2Proof.Machine.execPop32 s
  | .pusha16 => Sys2Proof.Machine.execPusha16 s
  | .pusha32 => Sys2Proof.Machine.execPusha32 s
  | .fxsave a => Sys2Proof.Machine.execFxsave a s
  | .fxrstor a => Sys2Proof.Machine.execFxrstor a s

end Sys2Proof.Machine
end

