-- ==== Sys2Proof/Machine/Step.lean ====
section
/-! DEFINITION. One step of the machine: the next thing the sequencer or the environment does (spec/00_scope.md R5;
spec/10_state.md R25; log 1). -/

namespace Sys2Proof.Machine

/-- One step. With nothing to do the block is idle and nothing changes (60_exceptions.md R216). A command is decoded and performed to
completion (R5); a word the decoder refuses is `undefined_command` (30_encoding.md R86). -/
def step (s : State) : Host.Outcome State Fault Refusal :=
  match s.inputs with
  | [] => .next s
  | .environment e :: rest => .next (environmentAct e { s with inputs := rest })
  | .command c :: rest =>
    match decode c with
    | .error _ => .refused .undefinedCommand
    | .ok i => exec i { s with inputs := rest }

/-- The state with a table word issued as the next command (log 11). -/
def State.withFetchWord (s : State) (nbits w : Nat) : State :=
  { s with inputs := .command (tableCommand nbits w) :: s.inputs }

end Sys2Proof.Machine
end

