-- ==== Sys2Proof/Machine/Pseudo.lean ====
section
/-! DEFINITION. The assembler's pseudo-instruction `materialize` (spec/30_encoding.md R88), which is a sequence of commands. -/

namespace Sys2Proof.Machine

/-- Perform commands one after the other; the first refusal ends the sequence. -/
def execAll : List Instr → State → Answer
  | [], s => .next s
  | i :: is, s =>
    match exec i s with
    | .next s' => execAll is s'
    | .fault f => .fault f
    | .refused r => .refused r

/-- The expansion of `materialize` at a state: the six getters, then `setflags v, 0x8D5` with `v` read from their results. -/
def materialize (s : State) : List Instr :=
  [.getcf, .getpf, .getaf, .getzf, .getsf, .getof, .setflags (materializedFlags s.fl) 0x8D5]

end Sys2Proof.Machine
end

