-- ==== Sys2Proof/Safety.lean ====
section
/-! DEFINITION. What a good state is, and the terms in which the statements speak of a command's effect. -/

namespace Sys2Proof.Machine

/-- The invariant of the machine: memory is in canonical form, "Bits outside `STATUS_MASK` always hold 0" in `flags_changed`
(10_state.md R27), and "The invariant is `fsw_rest[13:11] = 0`" (R35). -/
structure Inv (s : State) : Prop where
  memory : s.mem.wf = true
  dirtyMask : s.fl.flagsChanged &&& ~~~statusMask = 0
  statusRest : s.fx.fswRest &&& ~~~fswRestMask = 0

/-- The block's state `S` of R20 is the same: registers, flag state, stack mode, FPU and SSE state. -/
structure SameBlock (s t : State) : Prop where
  gpr : t.gpr = s.gpr
  fl : t.fl = s.fl
  stackSize32 : t.stackSize32 = s.stackSize32
  fx : t.fx = s.fx

/-- What no command writes is the same: the stack mode (R32), the inputs `ss_base` (R33), permissions (R64) and parameters (R6), and
what is still to be issued. -/
structure SameInputs (s t : State) : Prop where
  stackSize32 : t.stackSize32 = s.stackSize32
  ssBase : t.ssBase = s.ssBase
  unreadable : t.unreadable = s.unreadable
  unwritable : t.unwritable = s.unwritable
  params : t.params = s.params
  inputs : t.inputs = s.inputs

/-- Every byte of memory outside `a .. a+n-1` reads as before. -/
def SameOutside (a : Word) (n : Nat) (s t : State) : Prop :=
  ∀ x : Word, x ∉ addrsFrom a n → memGet t.mem x.toNat = memGet s.mem x.toNat

/-- Every byte of `a .. a+n-1` is readable (R64). -/
def AllReadable (s : State) (a : Word) (n : Nat) : Prop := ∀ x ∈ addrsFrom a n, byteReadable s x = true

/-- Every byte of `a .. a+n-1` is writable (R64). -/
def AllWritable (s : State) (a : Word) (n : Nat) : Prop := ∀ x ∈ addrsFrom a n, byteWritable s x = true

/-- The hazard of 70_reset_and_hazards.md R235: 16-bit stack mode with SP below the size of the block. -/
def PushaWraps (s : State) (n : Nat) : Prop := s.stackSize32 = false ∧ (gpr16 s espIndex).toNat < n

/-- The address of the j-th push of PUSHA with pushes of `n` bytes, counted from 0 (41_stack.md R148, R149). -/
def pushaSlot (s : State) (n j : Nat) : Word := ea s (-(BitVec.ofNat 32 (n * (j + 1))))

/-- The bytes that a PUSHA stores to. -/
def InPushaSlots (s : State) (n count : Nat) (x : Word) : Prop := ∃ j, j < count ∧ x ∈ addrsFrom (pushaSlot s n j) n

/-- The byte offsets of the image that FXSAVE leaves alone: the rows marked † in 42_fxstate.md R170. -/
def unlistedOffset (d : Nat) : Bool :=
  d == 5 || d == 14 || d == 15 || d == 22 || d == 23
  || (decide (32 ≤ d) && decide (d < 160) && decide (10 ≤ (d - 32) % 16))
  || (decide (288 ≤ d) && decide (d < 512))

/-- `align_check` passes (R178). -/
def AlignOk (s : State) (a : Word) : Prop := s.params.fxAlignCheck = false ∨ a.toNat % 16 = 0

/-- The port values that a command names (30_encoding.md R82, R83): every other port, and bits 31:16 of A in PUSH16 (R85), it ignores. -/
def namedPorts : Instr → Ports → List Word
  | .snap _ _ _ _ _ _, p => [p.a, p.b, p.c, p.d, p.e, p.f]
  | .setflags _ _, p => [p.a, p.b]
  | .stackEa _, p | .stackAdjust _, p | .push32 _, p | .fxsave _, p | .fxrstor _, p => [p.a]
  | .push16 _, p => [p.a &&& 0xFFFF]
  | .getcf, _ | .getpf, _ | .getaf, _ | .getzf, _ | .getsf, _ | .getof, _ => []
  | .testO, _ | .testB, _ | .testZ, _ | .testS, _ | .testP, _ | .testBe, _ | .testL, _ | .testLe, _ => []
  | .evalcc _, _ | .pop16, _ | .pop32, _ | .pusha16, _ | .pusha32, _ => []

/-- The commands of 40_flags.md R107: GET_*, TEST_* and EVAL_CC. -/
def isFlagRead : Instr → Bool
  | .getcf | .getpf | .getaf | .getzf | .getsf | .getof => true
  | .testO | .testB | .testZ | .testS | .testP | .testBe | .testL | .testLe => true
  | .evalcc _ => true
  | .snap _ _ _ _ _ _ | .setflags _ _ => false
  | .stackEa _ | .stackAdjust _ | .push16 _ | .push32 _ | .pop16 | .pop32 | .pusha16 | .pusha32 => false
  | .fxsave _ | .fxrstor _ => false

/-- The eight stack commands (41_stack.md). -/
def isStackCommand : Instr → Bool
  | .stackEa _ | .stackAdjust _ | .push16 _ | .push32 _ | .pop16 | .pop32 | .pusha16 | .pusha32 => true
  | .getcf | .getpf | .getaf | .getzf | .getsf | .getof => false
  | .testO | .testB | .testZ | .testS | .testP | .testBe | .testL | .testLe => false
  | .evalcc _ | .snap _ _ _ _ _ _ | .setflags _ _ => false
  | .fxsave _ | .fxrstor _ => false

/-- Change the next state of an answer, if it is one. -/
def mapNext (g : State → State) : Answer → Answer
  | .next t => .next (g t)
  | .fault f => .fault f
  | .refused r => .refused r

/-- The operand at the operand size: its low `k` bits as an unsigned number. -/
def lowPart (k : Nat) (v : Word) : Nat := v.toNat % 2 ^ k

/-- The operand at the operand size as a two's-complement number. -/
def signedPart (k : Nat) (v : Word) : Int := (v.setWidth k).toInt

/-- The operand width in bits of an operand size (10_state.md R30: the size is width - 1). -/
def opWidth (n : OpSize) : Nat := opSizeBit n + 1

end Sys2Proof.Machine
end

