-- ==== Sys2Proof/Certificates/Slice0/Obligations.lean ====
section
/-! DEFINITION. The statements about the machine, for the provers. Each docstring names the rule of spec/ it formalises. In all of
them `response`, `bus`, `draws` and `inputs` are the model's own records of what the block answers, of the accesses it makes, of the
`FAULT_ADDR` draws and of what is issued (log 3, log 13, log 4, log 1). -/

open Sys2Proof Sys2Proof.Machine

/-! ### Command words -/

/-- Words of R83 written out, at least one of each family, and the refused words of 95_test_vectors.md section 3.1. -/
def Obligations.WordsOfTheOpcodeMapDecode : Prop :=
  ∀ p : Ports,
    decode ⟨0x00000010, p⟩ = .ok .getcf ∧
    decode ⟨0x00000015, p⟩ = .ok .getof ∧
    decode ⟨0x0000001F, p⟩ = .ok .testLe ∧
    decode ⟨0x00000520, p⟩ = .ok (.evalcc 5) ∧
    decode ⟨0x00000F20, p⟩ = .ok (.evalcc 15) ∧
    decode ⟨0x00000028, p⟩ = .ok (.snap p.a p.b p.c p.d p.e p.f) ∧
    decode ⟨0x00000029, p⟩ = .ok (.setflags p.a p.b) ∧
    decode ⟨0x00000030, p⟩ = .ok (.stackEa p.a) ∧
    decode ⟨0x00000032, p⟩ = .ok (.push16 (p.a.extractLsb' 0 16)) ∧
    decode ⟨0x00000037, p⟩ = .ok .pusha32 ∧
    decode ⟨0x00000040, p⟩ = .ok (.fxsave p.a) ∧
    decode ⟨0x00000041, p⟩ = .ok (.fxrstor p.a) ∧
    decode ⟨0x00000110, p⟩ = .error .conditionNotZero ∧
    decode ⟨0x00001010, p⟩ = .error .reservedNotZero ∧
    decode ⟨0x00000016, p⟩ = .error .unlistedOpc ∧
    decode ⟨0x00000021, p⟩ = .error .unlistedOpc ∧
    decode ⟨0x000000FF, p⟩ = .error .unlistedOpc ∧
    decode ⟨0x80000036, p⟩ = .error .reservedNotZero

/-- Decode and encode agree: every command, with every operand, is read back from its word and ports (R81 to R84). -/
def Obligations.EveryCommandDecodesFromItsEncoding : Prop :=
  ∀ i : Instr, decode (encode i) = .ok i

/-- The other direction, with every value of every port: a word and ports are accepted as a command exactly when the word is the one word
of that command and the ports it names carry its operands; ports that it does not name make no difference (R82, R83, R85). -/
def Obligations.AcceptedWordsAreTheEncodedWords : Prop :=
  ∀ (w : Word) (p : Ports) (i : Instr),
    decode ⟨w, p⟩ = .ok i ↔ w = (encode i).word ∧ namedPorts i p = namedPorts i (encode i).ports

/-- R86: a step refuses an issued word as `undefined_command` exactly when its OPC is not in the map, RSV is not zero, or CC is not zero
outside EVAL_CC. -/
def Obligations.UndefinedCommandsAreExactlyTheIllegalWords : Prop :=
  ∀ (s : State) (c : Command) (rest : List Input), s.inputs = .command c :: rest →
    (step s = .refused .undefinedCommand ↔
      (c.word.extractLsb' 0 8 ∉ ([0x10, 0x11, 0x12, 0x13, 0x14, 0x15, 0x18, 0x19, 0x1A, 0x1B, 0x1C, 0x1D, 0x1E, 0x1F, 0x20,
          0x28, 0x29, 0x30, 0x31, 0x32, 0x33, 0x34, 0x35, 0x36, 0x37, 0x40, 0x41] : List (BitVec 8)) ∨
        c.word.extractLsb' 12 20 ≠ 0 ∨
        (c.word.extractLsb' 8 4 ≠ 0 ∧ c.word.extractLsb' 0 8 ≠ 0x20)))

/-- A step performs the command at the head of the input queue, at the state without it (log 1). -/
def Obligations.StepPerformsTheIssuedCommand : Prop :=
  ∀ (s : State) (c : Command) (rest : List Input) (i : Instr),
    s.inputs = .command c :: rest → decode c = .ok i → step s = exec i { s with inputs := rest }

/-- R216: the block is idle between commands. That a step with nothing issued is such an idle moment is the model's choice (log 1). -/
def Obligations.IdleBlockStaysTheSame : Prop :=
  ∀ s : State, s.inputs = [] → step s = .next s

/-- What the environment does between two commands is one step (the model's choice, log 2), and but for the external reset it leaves what only the write ports
write: the snapshot (R29), the dirty mask (R27) and the six status bits of `flags` (R26). -/
def Obligations.EnvironmentLeavesTheFlagEngine : Prop :=
  ∀ (s : State) (e : EnvironmentAct) (rest : List Input), s.inputs = .environment e :: rest → (∀ r, e ≠ .reset r) →
    ∃ t, step s = .next t ∧ t.inputs = rest ∧
      t.fl.flags &&& statusMask = s.fl.flags &&& statusMask ∧ t.fl.flagsChanged = s.fl.flagsChanged ∧
      t.fl.lastOp1 = s.fl.lastOp1 ∧ t.fl.lastOp2 = s.fl.lastOp2 ∧ t.fl.lastResult = s.fl.lastResult ∧
      t.fl.lastAddResult = s.fl.lastAddResult ∧ t.fl.lastOpSize = s.fl.lastOpSize ∧
      t.params = s.params ∧ t.response = s.response ∧ t.bus = s.bus

/-! ### Flag reads -/

/-- R100, R120: the stored path when the dirty bit is clear, the formula when it is set; the dirty bits of other flags do not matter;
the flag's value is raw ≠ 0. -/
def Obligations.DirtyBitSelectsStoredOrComputed : Prop :=
  ∀ (x : StatusFlag) (f : FlagState),
    (f.flagsChanged &&& flagMask x = 0 → rawFlag x f = f.flags &&& flagMask x) ∧
    (f.flagsChanged &&& flagMask x ≠ 0 → rawFlag x f = computedFlag x f) ∧
    (flagVal x f = true ↔ rawFlag x f ≠ 0) ∧
    ∀ d : Word, d &&& flagMask x = f.flagsChanged &&& flagMask x → rawFlag x { f with flagsChanged := d } = rawFlag x f

/-- R100 to R106: the words and the answers of the six getters; nothing else changes. -/
def Obligations.GettersAnswerTheRawFlag : Prop :=
  ∀ s : State,
    ((encode .getcf).word = 0x10 ∧ exec .getcf s = .next { s with response := .ok (
      if s.fl.flagsChanged &&& 0x001 ≠ 0 then
        ((s.fl.lastOp1 ^^^ ((s.fl.lastOp1 ^^^ s.fl.lastOp2) &&& (s.fl.lastOp2 ^^^ s.fl.lastAddResult))) >>> opSizeBit s.fl.lastOpSize) &&& 1
      else s.fl.flags &&& 0x001) }) ∧
    ((encode .getpf).word = 0x11 ∧ exec .getpf s = .next { s with response := .ok (
      if s.fl.flagsChanged &&& 0x004 ≠ 0 then
        (((0x9669 : Word) <<< 2) >>> ((s.fl.lastResult ^^^ (s.fl.lastResult >>> 4)) &&& 0xF).toNat) &&& 0x004
      else s.fl.flags &&& 0x004) }) ∧
    ((encode .getaf).word = 0x12 ∧ exec .getaf s = .next { s with response := .ok (
      if s.fl.flagsChanged &&& 0x010 ≠ 0 then
        (s.fl.lastOp1 ^^^ s.fl.lastOp2 ^^^ s.fl.lastAddResult) &&& 0x010
      else s.fl.flags &&& 0x010) }) ∧
    ((encode .getzf).word = 0x13 ∧ exec .getzf s = .next { s with response := .ok (
      if s.fl.flagsChanged &&& 0x040 ≠ 0 then
        ((~~~s.fl.lastResult &&& (s.fl.lastResult - 1)) >>> opSizeBit s.fl.lastOpSize) &&& 1
      else s.fl.flags &&& 0x040) }) ∧
    ((encode .getsf).word = 0x14 ∧ exec .getsf s = .next { s with response := .ok (
      if s.fl.flagsChanged &&& 0x080 ≠ 0 then
        (s.fl.lastResult >>> opSizeBit s.fl.lastOpSize) &&& 1
      else s.fl.flags &&& 0x080) }) ∧
    ((encode .getof).word = 0x15 ∧ exec .getof s = .next { s with response := .ok (
      if s.fl.flagsChanged &&& 0x800 ≠ 0 then
        (((s.fl.lastOp1 ^^^ s.fl.lastAddResult) &&& (s.fl.lastOp2 ^^^ s.fl.lastAddResult)) >>> opSizeBit s.fl.lastOpSize) &&& 1
      else s.fl.flags &&& 0x800) })

/-- R108 to R115: the words and the answers of the eight predicates; nothing else changes. -/
def Obligations.PredicatesAnswerTheirFormulas : Prop :=
  ∀ s : State,
    let answers (i : Instr) (p : Bool) : Prop := exec i s = .next { s with response := .ok (if p then 1 else 0) }
    ((encode .testO).word = 0x18 ∧ answers .testO (flagVal .of s.fl)) ∧
    ((encode .testB).word = 0x19 ∧ answers .testB (flagVal .cf s.fl)) ∧
    ((encode .testZ).word = 0x1A ∧ answers .testZ (flagVal .zf s.fl)) ∧
    ((encode .testS).word = 0x1B ∧ answers .testS (flagVal .sf s.fl)) ∧
    ((encode .testP).word = 0x1C ∧ answers .testP (flagVal .pf s.fl)) ∧
    ((encode .testBe).word = 0x1D ∧ answers .testBe (flagVal .cf s.fl || flagVal .zf s.fl)) ∧
    ((encode .testL).word = 0x1E ∧ answers .testL (flagVal .sf s.fl != flagVal .of s.fl)) ∧
    ((encode .testLe).word = 0x1F ∧ answers .testLe (flagVal .zf s.fl || (flagVal .sf s.fl != flagVal .of s.fl)))

/-- R84, R116: the word of EVAL_CC and its sixteen conditions, written out; nothing else changes. -/
def Obligations.EvalCcAnswersTheSixteenConditions : Prop :=
  ∀ s : State,
    let answers (cc : BitVec 4) (p : Bool) : Prop := exec (.evalcc cc) s = .next { s with response := .ok (if p then 1 else 0) }
    let c := flagVal .cf s.fl
    let z := flagVal .zf s.fl
    let l := flagVal .sf s.fl != flagVal .of s.fl
    (∀ cc : BitVec 4, (encode (.evalcc cc)).word = 0x20 ||| (cc.setWidth 32 <<< 8)) ∧
    answers 0x0 (flagVal .of s.fl) ∧ answers 0x1 (!flagVal .of s.fl) ∧
    answers 0x2 c ∧ answers 0x3 (!c) ∧
    answers 0x4 z ∧ answers 0x5 (!z) ∧
    answers 0x6 (c || z) ∧ answers 0x7 (!(c || z)) ∧
    answers 0x8 (flagVal .sf s.fl) ∧ answers 0x9 (!flagVal .sf s.fl) ∧
    answers 0xA (flagVal .pf s.fl) ∧ answers 0xB (!flagVal .pf s.fl) ∧
    answers 0xC l ∧ answers 0xD (!l) ∧
    answers 0xE (z || l) ∧ answers 0xF (!(z || l))

/-- R107: GET_*, TEST_* and EVAL_CC change no state and access no memory, and their answer depends on the flag state alone. -/
def Obligations.FlagReadsArePure : Prop :=
  ∀ i : Instr, isFlagRead i = true →
    (∀ s : State, ∃ y : Word, exec i s = .next { s with response := .ok y }) ∧
    ∀ (s s' t t' : State), s.fl = s'.fl → exec i s = .next t → exec i s' = .next t' → t.response = t'.response

/-- 40_flags.md R101, corner case 1: the computed CF is the carry out of the addition `op1 + op2 = add_result` at the operand width. -/
def Obligations.ComputedCarryIsTheCarryOut : Prop :=
  ∀ f : FlagState, let k := opWidth f.lastOpSize
    lowPart k f.lastAddResult = (lowPart k f.lastOp1 + lowPart k f.lastOp2) % 2 ^ k →
    computedCF f = if 2 ^ k ≤ lowPart k f.lastOp1 + lowPart k f.lastOp2 then 1 else 0

/-- R106, corner case: the computed OF is the signed overflow of that addition. -/
def Obligations.ComputedOverflowIsSignedOverflow : Prop :=
  ∀ f : FlagState, let k := opWidth f.lastOpSize
    lowPart k f.lastAddResult = (lowPart k f.lastOp1 + lowPart k f.lastOp2) % 2 ^ k →
    computedOF f = if signedPart k f.lastOp1 + signedPart k f.lastOp2 < -2 ^ (k - 1) ∨
      2 ^ (k - 1) ≤ signedPart k f.lastOp1 + signedPart k f.lastOp2 then 1 else 0

/-- R104, R105, corner cases: ZF is the zero test of the low part of the result, SF its sign, whatever stands above. -/
def Obligations.ComputedZeroAndSignReadTheLowPart : Prop :=
  ∀ f : FlagState, let k := opWidth f.lastOpSize
    computedZF f = (if lowPart k f.lastResult = 0 then 1 else 0) ∧
    computedSF f = (if signedPart k f.lastResult < 0 then 1 else 0)

/-- R102, corner case: PF is set exactly when the low byte of the result has an even number of 1 bits. -/
def Obligations.ComputedParityIsEvenParityOfTheLowByte : Prop :=
  ∀ f : FlagState,
    computedPF f = if ((List.range 8).countP fun i => f.lastResult.getLsbD i) % 2 = 0 then 0x4 else 0

/-- R103, corner case: AF is the carry out of bit 3 of the addition. -/
def Obligations.ComputedAdjustIsTheNibbleCarry : Prop :=
  ∀ f : FlagState, lowPart 5 f.lastAddResult = (lowPart 5 f.lastOp1 + lowPart 5 f.lastOp2) % 2 ^ 5 →
    computedAF f = if 16 ≤ lowPart 4 f.lastOp1 + lowPart 4 f.lastOp2 then 0x10 else 0

/-- R119, width locality: what each computed flag depends on. -/
def Obligations.ComputedFlagsAreWidthLocal : Prop :=
  ∀ f g : FlagState, f.lastOpSize = g.lastOpSize → let n := opSizeBit f.lastOpSize
    (f.lastOp1.getLsbD n = g.lastOp1.getLsbD n → f.lastOp2.getLsbD n = g.lastOp2.getLsbD n →
      f.lastAddResult.getLsbD n = g.lastAddResult.getLsbD n → computedCF f = computedCF g ∧ computedOF f = computedOF g) ∧
    (f.lastResult.getLsbD n = g.lastResult.getLsbD n → computedSF f = computedSF g) ∧
    (lowPart (n + 1) f.lastResult = lowPart (n + 1) g.lastResult → computedZF f = computedZF g) ∧
    (lowPart 8 f.lastResult = lowPart 8 g.lastResult → computedPF f = computedPF g) ∧
    (f.lastOp1.getLsbD 4 = g.lastOp1.getLsbD 4 → f.lastOp2.getLsbD 4 = g.lastOp2.getLsbD 4 →
      f.lastAddResult.getLsbD 4 = g.lastAddResult.getLsbD 4 → computedAF f = computedAF g)

/-- The compare convention of 40_flags.md section 5 (SUB, CMP: op1 and result a-b, op2 b, add_result a) at each operand size: after the
snapshot the conditions are the x86 comparisons of the operands at that size. -/
def Obligations.CompareSnapshotGivesTheComparisons : Prop :=
  ∀ (s : State) (a b e : Word) (n : OpSize), opSizeOf e = some n → let k := opWidth n
    ∃ t, exec (.snap (a - b) b (a - b) a e 0x8D5) s = .next t ∧
      condHolds .b t.fl = decide (lowPart k a < lowPart k b) ∧
      condHolds .z t.fl = decide (lowPart k a = lowPart k b) ∧
      condHolds .be t.fl = decide (lowPart k a ≤ lowPart k b) ∧
      condHolds .l t.fl = decide (signedPart k a < signedPart k b) ∧
      condHolds .le t.fl = decide (signedPart k a ≤ signedPart k b)

/-! ### The write ports -/

/-- R117: SNAP_WRITE loads the whole snapshot and replaces the dirty mask for a legal operand size, and is refused for any other; `flags` and
everything else stay. -/
def Obligations.SnapWriteLoadsTheSnapshotOrIsRefused : Prop :=
  ∀ (s : State) (a b c d e f : Word),
    (encode (.snap a b c d e f)).word = 0x28 ∧
    (∀ n : OpSize, e = BitVec.ofNat 32 (opSizeBit n) → exec (.snap a b c d e f) s = .next { s with
      fl := { flags := s.fl.flags, flagsChanged := f &&& 0x8D5, lastOp1 := a, lastOp2 := b, lastResult := c,
              lastAddResult := d, lastOpSize := n }
      response := .ok 0 }) ∧
    (opSizeBit .byte = 7 ∧ opSizeBit .half = 15 ∧ opSizeBit .word = 31) ∧
    (e ≠ 7 → e ≠ 15 → e ≠ 31 → exec (.snap a b c d e f) s = .refused .badOpSize)

/-- R118: FLAGS_WRITE writes the masked status bits and makes them authoritative; every other bit and everything else stay. -/
def Obligations.FlagsWriteStoresTheMaskedStatusBits : Prop :=
  ∀ (s : State) (v m : Word),
    (encode (.setflags v m)).word = 0x29 ∧
    exec (.setflags v m) s = .next { s with
      fl := { s.fl with
        flags := (s.fl.flags &&& ~~~(m &&& 0x8D5)) ||| (v &&& (m &&& 0x8D5))
        flagsChanged := s.fl.flagsChanged &&& ~~~(m &&& 0x8D5) }
      response := .ok 0 }

/-- 70_reset_and_hazards.md R233: folding flag X by FLAGS_WRITE and then loading a snapshot whose mask leaves X out keeps X's value, and the fold
alone keeps every flag's value. -/
def Obligations.FoldBeforeSnapshotKeepsTheFlag : Prop :=
  ∀ (s : State) (x : StatusFlag) (a b c d e m : Word) (n : OpSize), opSizeOf e = some n → m &&& flagMask x = 0 →
    ∃ t u, exec (.setflags ((if flagVal x s.fl then 1 else 0) <<< flagPos x) (flagMask x)) s = .next t ∧
      (∀ y : StatusFlag, flagVal y t.fl = flagVal y s.fl) ∧
      exec (.snap a b c d e m) t = .next u ∧ flagVal x u.fl = flagVal x s.fl

/-- 30_encoding.md R88: `materialize` keeps every flag's value, clears every dirty bit, and changes no other bit of `flags` and no other
state of the block. -/
def Obligations.MaterializeKeepsEveryFlag : Prop :=
  ∀ s : State, s.fl.flagsChanged &&& ~~~statusMask = 0 →
    ∃ t, execAll (materialize s) s = .next t ∧ (∀ x : StatusFlag, flagVal x t.fl = flagVal x s.fl) ∧
      t.fl.flagsChanged = 0 ∧ t.fl.flags &&& ~~~statusMask = s.fl.flags &&& ~~~statusMask ∧
      t.gpr = s.gpr ∧ t.fx = s.fx ∧ t.mem = s.mem ∧ t.bus = s.bus ∧ SameInputs s t

/-! ### The stack unit -/

/-- R140, R141: STACK_EA in both modes; nothing else changes. -/
def Obligations.StackEaAnswersTheAddress : Prop :=
  ∀ (s : State) (off : Word),
    (encode (.stackEa off)).word = 0x30 ∧
    exec (.stackEa off) s = .next { s with response := .ok (
      if s.stackSize32 then s.ssBase + s.gpr[4] + off
      else s.ssBase + (s.gpr[4].extractLsb' 0 16 + off.extractLsb' 0 16).setWidth 32) }

/-- R142, R143, R22: STACK_ADJUST in both modes; in 16-bit mode bits 31:16 of ESP are kept; nothing else changes. -/
def Obligations.StackAdjustMovesThePointer : Prop :=
  ∀ (s : State) (amt : Word),
    (encode (.stackAdjust amt)).word = 0x31 ∧
    exec (.stackAdjust amt) s = .next { s with
      gpr := s.gpr.set 4 (
        if s.stackSize32 then s.gpr[4] + amt
        else s.gpr[4].extractLsb' 16 16 ++ (s.gpr[4].extractLsb' 0 16 + amt.extractLsb' 0 16))
      response := .ok 0 }

/-- R144: PUSH16. On writable bytes the value is stored below the pointer, the pointer is committed, and every other byte and everything
else stay. When a byte is not writable it signals a write fault at such a byte, and no register and no memory changes. -/
def Obligations.Push16StoresThenCommits : Prop :=
  ∀ (s : State) (v : Half), let a := ea s (-2)
    (encode (.push16 v)).word = 0x32 ∧
    (AllWritable s a 2 → ∃ t, exec (.push16 v) s = .next t ∧ t.response = .ok 0 ∧
      t.gpr = (adjust (-2) s).gpr ∧
      memGet t.mem a.toNat = v.extractLsb' 0 8 ∧ memGet t.mem (a + 1).toNat = v.extractLsb' 8 8 ∧
      SameOutside a 2 s t ∧ t.fl = s.fl ∧ t.fx = s.fx ∧ SameInputs s t ∧ t.draws = s.draws ∧
      t.bus = s.bus ++ [.write a [v.extractLsb' 0 8, v.extractLsb' 8 8]]) ∧
    (¬ AllWritable s a 2 → ∃ x ∈ addrsFrom a 2, byteWritable s x = false ∧
      exec (.push16 v) s = .next { s with
        response := .fault (.memFault x .write)
        bus := s.bus ++ [.write a [v.extractLsb' 0 8, v.extractLsb' 8 8]], draws := s.draws + 1 })

/-- R145: PUSH32, likewise with four bytes. -/
def Obligations.Push32StoresThenCommits : Prop :=
  ∀ (s : State) (v : Word), let a := ea s (-4)
    let bytes := [v.extractLsb' 0 8, v.extractLsb' 8 8, v.extractLsb' 16 8, v.extractLsb' 24 8]
    (encode (.push32 v)).word = 0x33 ∧
    (AllWritable s a 4 → ∃ t, exec (.push32 v) s = .next t ∧ t.response = .ok 0 ∧
      t.gpr = (adjust (-4) s).gpr ∧
      (∀ k : Nat, k < 4 → memGet t.mem (a + BitVec.ofNat 32 k).toNat = v.extractLsb' (8 * k) 8) ∧
      SameOutside a 4 s t ∧ t.fl = s.fl ∧ t.fx = s.fx ∧ SameInputs s t ∧ t.draws = s.draws ∧
      t.bus = s.bus ++ [.write a bytes]) ∧
    (¬ AllWritable s a 4 → ∃ x ∈ addrsFrom a 4, byteWritable s x = false ∧
      exec (.push32 v) s = .next { s with
        response := .fault (.memFault x .write), bus := s.bus ++ [.write a bytes], draws := s.draws + 1 })

/-- R146: POP16. On readable bytes it answers the little-endian value at the pointer and commits the pointer; memory and everything else stay.
When a byte is not readable it signals a read fault at such a byte, and no register and no memory changes. -/
def Obligations.Pop16ReadsThenCommits : Prop :=
  ∀ s : State, let a := s.ssBase + (if s.stackSize32 then s.gpr[4] else (s.gpr[4].extractLsb' 0 16).setWidth 32)
    (encode .pop16).word = 0x34 ∧
    (AllReadable s a 2 → exec .pop16 s = .next { adjust 2 s with
      response := .ok ((memGet s.mem (a + 1).toNat ++ memGet s.mem a.toNat).setWidth 32)
      bus := s.bus ++ [.read a 2] }) ∧
    (¬ AllReadable s a 2 → ∃ x ∈ addrsFrom a 2, byteReadable s x = false ∧
      exec .pop16 s = .next { s with
        response := .fault (.memFault x .read), bus := s.bus ++ [.read a 2], draws := s.draws + 1 })

/-- R147: POP32, likewise with four bytes; the pattern read is answered unchanged. -/
def Obligations.Pop32ReadsThenCommits : Prop :=
  ∀ s : State, let a := s.ssBase + (if s.stackSize32 then s.gpr[4] else (s.gpr[4].extractLsb' 0 16).setWidth 32)
    (encode .pop32).word = 0x35 ∧
    (AllReadable s a 4 → exec .pop32 s = .next { adjust 4 s with
      response := .ok (memGet s.mem (a + 3).toNat ++ memGet s.mem (a + 2).toNat ++
        (memGet s.mem (a + 1).toNat ++ memGet s.mem a.toNat))
      bus := s.bus ++ [.read a 4] }) ∧
    (¬ AllReadable s a 4 → ∃ x ∈ addrsFrom a 4, byteReadable s x = false ∧
      exec .pop32 s = .next { s with
        response := .fault (.memFault x .read), bus := s.bus ++ [.read a 4], draws := s.draws + 1 })

/-- R148: PUSHA16. With its checked block and its eight slots writable: the eight registers in index order with the original SP at index 4, the
pointer 16 lower by the mode's rule, every other byte and everything else as before. When the check fails: a write fault at a byte of the block
that is not writable, nothing changed. When a slot fails after a passed check (70_reset_and_hazards.md R235): a write fault at a byte of that
slot, the pushes before it performed, nothing more. -/
def Obligations.Pusha16PushesTheEightRegisters : Prop :=
  ∀ s : State, let a := ea s (-16)
    (encode .pusha16).word = 0x36 ∧
    (AllWritable s a 16 → (∀ j : Nat, j < 8 → AllWritable s (pushaSlot s 2 j) 2) →
      ∃ t, exec .pusha16 s = .next t ∧ t.response = .ok 0 ∧ t.gpr = (adjust (-16) s).gpr ∧
        (∀ i : Fin 8, loadBytes t.mem (pushaSlot s 2 i.val) 2 = [s.gpr[i].extractLsb' 0 8, s.gpr[i].extractLsb' 8 8]) ∧
        (∀ x : Word, ¬ InPushaSlots s 2 8 x → memGet t.mem x.toNat = memGet s.mem x.toNat) ∧
        t.fl = s.fl ∧ t.fx = s.fx ∧ SameInputs s t ∧ t.draws = s.draws) ∧
    (¬ AllWritable s a 16 → ∃ x ∈ addrsFrom a 16, byteWritable s x = false ∧
      exec .pusha16 s = .next { s with
        response := .fault (.memFault x .write), bus := s.bus ++ [.checkWritable a 16], draws := s.draws + 1 }) ∧
    (∀ k : Nat, k < 8 → AllWritable s a 16 →
      (∀ j : Nat, j < k → AllWritable s (pushaSlot s 2 j) 2) → ¬ AllWritable s (pushaSlot s 2 k) 2 →
      ∃ t, ∃ x ∈ addrsFrom (pushaSlot s 2 k) 2, byteWritable s x = false ∧
        exec .pusha16 s = .next t ∧ t.response = .fault (.memFault x .write) ∧
        t.gpr = (adjust (-(BitVec.ofNat 32 (2 * k))) s).gpr ∧
        (∀ i : Fin 8, i.val < k →
          loadBytes t.mem (pushaSlot s 2 i.val) 2 = [s.gpr[i].extractLsb' 0 8, s.gpr[i].extractLsb' 8 8]) ∧
        (∀ y : Word, ¬ InPushaSlots s 2 k y → memGet t.mem y.toNat = memGet s.mem y.toNat) ∧
        t.fl = s.fl ∧ t.fx = s.fx ∧ SameInputs s t)

/-- R149: PUSHA32, likewise with 32-bit registers, the full ESP at index 4 in either mode. -/
def Obligations.Pusha32PushesTheEightRegisters : Prop :=
  ∀ s : State, let a := ea s (-32)
    let bytes (i : Fin 8) : List Byte :=
      [s.gpr[i].extractLsb' 0 8, s.gpr[i].extractLsb' 8 8, s.gpr[i].extractLsb' 16 8, s.gpr[i].extractLsb' 24 8]
    (encode .pusha32).word = 0x37 ∧
    (AllWritable s a 32 → (∀ j : Nat, j < 8 → AllWritable s (pushaSlot s 4 j) 4) →
      ∃ t, exec .pusha32 s = .next t ∧ t.response = .ok 0 ∧ t.gpr = (adjust (-32) s).gpr ∧
        (∀ i : Fin 8, loadBytes t.mem (pushaSlot s 4 i.val) 4 = bytes i) ∧
        (∀ x : Word, ¬ InPushaSlots s 4 8 x → memGet t.mem x.toNat = memGet s.mem x.toNat) ∧
        t.fl = s.fl ∧ t.fx = s.fx ∧ SameInputs s t ∧ t.draws = s.draws) ∧
    (¬ AllWritable s a 32 → ∃ x ∈ addrsFrom a 32, byteWritable s x = false ∧
      exec .pusha32 s = .next { s with
        response := .fault (.memFault x .write), bus := s.bus ++ [.checkWritable a 32], draws := s.draws + 1 }) ∧
    (∀ k : Nat, k < 8 → AllWritable s a 32 →
      (∀ j : Nat, j < k → AllWritable s (pushaSlot s 4 j) 4) → ¬ AllWritable s (pushaSlot s 4 k) 4 →
      ∃ t, ∃ x ∈ addrsFrom (pushaSlot s 4 k) 4, byteWritable s x = false ∧
        exec .pusha32 s = .next t ∧ t.response = .fault (.memFault x .write) ∧
        t.gpr = (adjust (-(BitVec.ofNat 32 (4 * k))) s).gpr ∧
        (∀ i : Fin 8, i.val < k → loadBytes t.mem (pushaSlot s 4 i.val) 4 = bytes i) ∧
        (∀ y : Word, ¬ InPushaSlots s 4 k y → memGet t.mem y.toNat = memGet s.mem y.toNat) ∧
        t.fl = s.fl ∧ t.fx = s.fx ∧ SameInputs s t)

/-- R148, R149, R205: outside the wrap of R235 a passed check is enough; PUSHA is then all or nothing. -/
def Obligations.PushaCompletesWhenTheBlockDoesNotWrap : Prop :=
  ∀ s : State,
    (¬ PushaWraps s 16 → AllWritable s (ea s (-16)) 16 → ∃ t, exec .pusha16 s = .next t ∧ t.response = .ok 0) ∧
    (¬ PushaWraps s 32 → AllWritable s (ea s (-32)) 32 → ∃ t, exec .pusha32 s = .next t ∧ t.response = .ok 0)

/-- R150: a push and then a pop, in either mode and at every pointer, answer the pushed value and leave the registers as they were. -/
def Obligations.PopUndoesPush : Prop :=
  ∀ (s : State) (v : Half) (w : Word),
    (AllWritable s (ea s (-2)) 2 → AllReadable s (ea s (-2)) 2 →
      ∃ t u, exec (.push16 v) s = .next t ∧ exec .pop16 t = .next u ∧ u.response = .ok (v.setWidth 32) ∧ u.gpr = s.gpr) ∧
    (AllWritable s (ea s (-4)) 4 → AllReadable s (ea s (-4)) 4 →
      ∃ t u, exec (.push32 w) s = .next t ∧ exec .pop32 t = .next u ∧ u.response = .ok w ∧ u.gpr = s.gpr)

/-- R151: no stack command reads or writes the flag state, the FPU state or the SSE state, and of the registers it writes only `gpr[4]`. -/
def Obligations.StackCommandsTouchOnlyEspAndMemory : Prop :=
  ∀ i : Instr, isStackCommand i = true → ∀ (s : State) (f : FlagState) (x : FxState),
    exec i { s with fl := f, fx := x } = mapNext (fun t => { t with fl := f, fx := x }) (exec i s) ∧
    ∀ t, exec i s = .next t → t.fl = s.fl ∧ t.fx = s.fx ∧ SameInputs s t ∧ ∀ j : Fin 8, j ≠ 4 → t.gpr[j] = s.gpr[j]

/-! ### The codec -/

/-- R174, R170: FXSAVE. With its checks passed it stores every listed field of the image, leaves the unlisted bytes and every byte outside the
512 alone, and changes nothing else. Its faults come in the order of R206, and each leaves the block and memory as they were. -/
def Obligations.FxsaveStoresTheImage : Prop :=
  ∀ (s : State) (a : Word),
    (encode (.fxsave a)).word = 0x40 ∧
    (AlignOk s a → AllWritable s a 512 → ∃ t, exec (.fxsave a) s = .next t ∧ t.response = .ok 0 ∧
      let field (off n : Nat) : List Byte := loadBytes t.mem (a + BitVec.ofNat 32 off) n
      field 0 2 = toBytes 2 s.fx.fcw ∧
      field 2 2 = toBytes 2 ((s.fx.fswRest &&& (0xC7FF : BitVec 16)) ||| (s.fx.stackPtr.setWidth 16 <<< 11)) ∧
      field 4 1 = [~~~s.fx.stackEmpty] ∧
      field 6 2 = toBytes 2 s.fx.fpuOpcode ∧
      field 8 4 = toBytes 4 s.fx.fpuIp ∧
      field 12 2 = toBytes 2 s.fx.fpuIpSelector ∧
      field 16 4 = toBytes 4 s.fx.fpuDp ∧
      field 20 2 = toBytes 2 s.fx.fpuDpSelector ∧
      field 24 4 = toBytes 4 s.fx.mxcsr ∧
      field 28 4 = toBytes 4 s.params.mxcsrMask ∧
      (∀ i j : Fin 8, j.val = (s.fx.stackPtr.toNat + i.val) % 8 → field (32 + 16 * i.val) 10 = toBytes 10 s.fx.stPhys[j]) ∧
      (∀ k : Fin 8, field (160 + 16 * k.val) 16 = toBytes 16 s.fx.xmm[k]) ∧
      (∀ d : Nat, unlistedOffset d = true →
        memGet t.mem (a + BitVec.ofNat 32 d).toNat = memGet s.mem (a + BitVec.ofNat 32 d).toNat) ∧
      SameOutside a 512 s t ∧ SameBlock s t ∧ SameInputs s t ∧ t.draws = s.draws) ∧
    (¬ AlignOk s a → exec (.fxsave a) s = .next { s with response := .fault (.gp 0) }) ∧
    (AlignOk s a → ¬ AllWritable s a 512 → ∃ x ∈ addrsFrom a 512, byteWritable s x = false ∧
      exec (.fxsave a) s = .next { s with
        response := .fault (.memFault x .write), bus := s.bus ++ [.checkWritable a 512], draws := s.draws + 1 })

/-- R175, R176, R177: FXRSTOR. With its checks passed and no reserved MXCSR bit it loads every field of R34 to R41 from the image, places the ST
slots by the restored `stack_ptr`, follows the quirk parameter for the instruction pointer, and changes nothing else. Its three faults come in
the order of R206, and each leaves the block and memory as they were. -/
def Obligations.FxrstorLoadsTheImage : Prop :=
  ∀ (s : State) (a : Word),
    let field (w off : Nat) : BitVec w := fromBytes w (loadBytes s.mem (a + BitVec.ofNat 32 off) (w / 8))
    (encode (.fxrstor a)).word = 0x41 ∧
    (AlignOk s a → AllReadable s a 512 → (field 32 24 &&& ~~~s.params.mxcsrMask) = (0 : Word) →
      ∃ t, exec (.fxrstor a) s = .next t ∧ t.response = .ok 0 ∧
        t.fx.fcw = field 16 0 ∧
        t.fx.fswRest = field 16 2 &&& (0xC7FF : BitVec 16) ∧
        t.fx.stackPtr = (field 16 2).extractLsb' 11 3 ∧
        t.fx.stackEmpty = ~~~field 8 4 ∧
        t.fx.fpuOpcode = field 16 6 ∧
        (s.params.fxrstorIpQuirk = false → t.fx.fpuIp = field 32 8 ∧ t.fx.fpuIpSelector = field 16 12) ∧
        (s.params.fxrstorIpQuirk = true →
          t.fx.fpuIp = (field 16 12).setWidth 32 ∧ t.fx.fpuIpSelector = s.fx.fpuIpSelector) ∧
        t.fx.fpuDp = field 32 16 ∧
        t.fx.fpuDpSelector = field 16 20 ∧
        t.fx.mxcsr = field 32 24 ∧
        (∀ i j : Fin 8, j.val = (t.fx.stackPtr.toNat + i.val) % 8 → t.fx.stPhys[j] = field 80 (32 + 16 * i.val)) ∧
        (∀ k : Fin 8, t.fx.xmm[k] = field 128 (160 + 16 * k.val)) ∧
        t.gpr = s.gpr ∧ t.fl = s.fl ∧ t.mem = s.mem ∧ SameInputs s t ∧ t.draws = s.draws) ∧
    (¬ AlignOk s a → exec (.fxrstor a) s = .next { s with response := .fault (.gp 0) }) ∧
    (AlignOk s a → ¬ AllReadable s a 512 → ∃ x ∈ addrsFrom a 512, byteReadable s x = false ∧
      exec (.fxrstor a) s = .next { s with
        response := .fault (.memFault x .read), bus := s.bus ++ [.checkReadable a 512], draws := s.draws + 1 }) ∧
    (AlignOk s a → AllReadable s a 512 → (field 32 24 &&& ~~~s.params.mxcsrMask) ≠ (0 : Word) →
      exec (.fxrstor a) s = .next { s with
        response := .fault (.gp 0), bus := s.bus ++ [.checkReadable a 512, .read (a + 24) 4] })

/-- R180: after every fault of FXRSTOR or FXSAVE the block's state and memory are unchanged. For a reserved MXCSR bit this is the source's property; for the
other faults of FXRSTOR and for FXSAVE it is the spec's own inference, "[derived: from rule R175]" and "[derived: from rule R174]". -/
def Obligations.CodecFaultsLeaveStateAndMemory : Prop :=
  ∀ (s t : State) (a : Word) (f : FaultSignal), t.response = .fault f →
    (exec (.fxrstor a) s = .next t → SameBlock s t ∧ t.mem = s.mem) ∧
    (exec (.fxsave a) s = .next t → SameBlock s t ∧ t.mem = s.mem)

/-- R179: FXSAVE and then FXRSTOR of the same image restore every field of R34 to R41; under the quirk parameter `fpu_ip` becomes the
zero-extended selector. -/
def Obligations.FxrstorUndoesFxsave : Prop :=
  ∀ (s : State) (a : Word), AlignOk s a → AllWritable s a 512 → AllReadable s a 512 →
    s.fx.mxcsr &&& ~~~s.params.mxcsrMask = 0 → s.fx.fswRest &&& ~~~fswRestMask = 0 →
    ∃ t u, exec (.fxsave a) s = .next t ∧ exec (.fxrstor a) t = .next u ∧ u.response = .ok 0 ∧
      u.fx = { s.fx with
        fpuIp := if s.params.fxrstorIpQuirk then s.fx.fpuIpSelector.setWidth 32 else s.fx.fpuIp } ∧
      u.gpr = s.gpr ∧ u.fl = s.fl ∧ u.mem = t.mem

/-- 42_fxstate.md: "Neither command reads or writes any flag state, general register or stack state." -/
def Obligations.CodecIgnoresFlagsRegistersAndStack : Prop :=
  ∀ (i : Instr), (∃ a, i = .fxsave a ∨ i = .fxrstor a) →
    ∀ (s : State) (g : Vector Word 8) (f : FlagState) (m : Bool) (b : Word),
      exec i { s with gpr := g, fl := f, stackSize32 := m, ssBase := b } =
        mapNext (fun t => { t with gpr := g, fl := f, stackSize32 := m, ssBase := b }) (exec i s) ∧
      ∀ t, exec i s = .next t → t.gpr = s.gpr ∧ t.fl = s.fl ∧ t.stackSize32 = s.stackSize32

/-! ### Memory -/

/-- R62: little-endian, seen through the primitives. A write of `n` bytes puts byte k of the value at address `a + k` and touches no other byte, and a
read of the first `m ≤ n` of them answers the low `8m` bits of the value. -/
def Obligations.ReadsSeeTheWrittenBytesLittleEndian : Prop :=
  ∀ (s : State) (a : Word) (n m : Nat) (v : BitVec (8 * n)), n ≤ 16 → m ≤ n → AllWritable s a n → AllReadable s a n →
    ∃ t, memWrite a n v s = .going () t ∧
      (∀ k : Nat, k < n → memGet t.mem (a + BitVec.ofNat 32 k).toNat = v.extractLsb' (8 * k) 8) ∧
      (∀ x : Word, x ∉ addrsFrom a n → memGet t.mem x.toNat = memGet s.mem x.toNat) ∧
      ∃ u, memRead (8 * m) a t = .going (v.setWidth (8 * m)) u

/-! ### The whole machine -/

/-- R202: the commands that can fault, with their causes; no other command can. -/
def Obligations.OnlyTheListedCausesFault : Prop :=
  ∀ (i : Instr) (s t : State) (f : FaultSignal), exec i s = .next t → t.response = .fault f →
    match f with
    | .gp code => code = 0 ∧
        ((∃ a, i = .fxsave a ∧ ¬ AlignOk s a) ∨ (∃ a, i = .fxrstor a ∧ (¬ AlignOk s a ∨
          fromBytes 32 (loadBytes s.mem (a + 24) 4) &&& ~~~s.params.mxcsrMask ≠ 0)))
    | .memFault x .write => byteWritable s x = false ∧
        ((∃ a, i = .fxsave a ∧ x ∈ addrsFrom a 512) ∨
          (i = .pusha16 ∧ (x ∈ addrsFrom (ea s (-16)) 16 ∨ InPushaSlots s 2 8 x)) ∨
          (i = .pusha32 ∧ (x ∈ addrsFrom (ea s (-32)) 32 ∨ InPushaSlots s 4 8 x)) ∨
          (∃ v, i = .push16 v ∧ x ∈ addrsFrom (ea s (-2)) 2) ∨ (∃ v, i = .push32 v ∧ x ∈ addrsFrom (ea s (-4)) 4))
    | .memFault x .read => byteReadable s x = false ∧
        ((∃ a, i = .fxrstor a ∧ x ∈ addrsFrom a 512) ∨
          (i = .pop16 ∧ x ∈ addrsFrom (s.ssBase + spVal s) 2) ∨ (i = .pop32 ∧ x ∈ addrsFrom (s.ssBase + spVal s) 4))

/-- R205: after every fault the block and memory are as before the command, except after a PUSHA whose block wraps. -/
def Obligations.FaultsArePreciseExceptWrappedPusha : Prop :=
  ∀ (i : Instr) (s t : State) (f : FaultSignal), exec i s = .next t → t.response = .fault f →
    (SameBlock s t ∧ t.mem = s.mem) ∨ (i = .pusha16 ∧ PushaWraps s 16) ∨ (i = .pusha32 ∧ PushaWraps s 32)

/-- R209: after a fault other than that of R205, the same command issued again once the environment has changed the permissions (log 2, log 8) succeeds
exactly as a first issue would: same result, same block state, same memory. -/
def Obligations.ReissueAfterFaultActsAsFirstIssue : Prop :=
  ∀ (i : Instr) (s t u : State) (f : FaultSignal) (y : Word) (r w : List Region),
    exec i s = .next t → t.response = .fault f →
    ¬ ((i = .pusha16 ∧ PushaWraps s 16) ∨ (i = .pusha32 ∧ PushaWraps s 32)) →
    exec i { s with unreadable := r, unwritable := w } = .next u → u.response = .ok y →
    ∃ v, exec i { t with unreadable := r, unwritable := w } = .next v ∧ v.response = .ok y ∧ SameBlock u v ∧ v.mem = u.mem

/-- R200, R204: a command that keeps the operand contract of R85 ends with a result or a fault signal; the one refusal of a command is that of
SNAP_WRITE with a bad operand size. -/
def Obligations.CommandsAnswerUnlessTheOperandSizeIsBad : Prop :=
  ∀ (i : Instr) (s : State),
    (i.wf = true → ∃ t, exec i s = .next t ∧ t.response ≠ .idle) ∧
    (∀ r, exec i s = .refused r → r = .badOpSize ∧
      ∃ a b c d e f, i = .snap a b c d e f ∧ e ≠ 7 ∧ e ≠ 15 ∧ e ≠ 31)

/-- R24: only the stack commands write the register file, and only `gpr[4]`; PUSHA, PUSH, POP and STACK_ADJUST are the ones that do. -/
def Obligations.OnlyStackCommandsMoveEsp : Prop :=
  ∀ (i : Instr) (s t : State), exec i s = .next t →
    (∀ j : Fin 8, j ≠ 4 → t.gpr[j] = s.gpr[j]) ∧
    (isStackCommand i = false ∨ (∃ off, i = .stackEa off) → t.gpr = s.gpr)

/-- R31, R26, R29: `flags` is written only by FLAGS_WRITE, the snapshot only by SNAP_WRITE, and `flags_changed` only by the two. -/
def Obligations.OnlyTheWritePortsWriteFlagState : Prop :=
  ∀ (i : Instr) (s t : State), exec i s = .next t →
    ((∀ v m, i ≠ .setflags v m) → t.fl.flags = s.fl.flags) ∧
    ((∀ a b c d e f, i ≠ .snap a b c d e f) →
      t.fl.lastOp1 = s.fl.lastOp1 ∧ t.fl.lastOp2 = s.fl.lastOp2 ∧ t.fl.lastResult = s.fl.lastResult ∧
      t.fl.lastAddResult = s.fl.lastAddResult ∧ t.fl.lastOpSize = s.fl.lastOpSize) ∧
    ((∀ v m, i ≠ .setflags v m) → (∀ a b c d e f, i ≠ .snap a b c d e f) → t.fl = s.fl)

/-- R32, R33, R42, R71: no command writes the stack mode, `ss_base`, the permissions or the parameters; only FXRSTOR writes FPU or SSE state, and only the
pushes and FXSAVE write memory. -/
def Obligations.CommandsKeepTheirInputs : Prop :=
  ∀ (i : Instr) (s t : State), exec i s = .next t →
    SameInputs s t ∧
    ((∀ a, i ≠ .fxrstor a) → t.fx = s.fx) ∧
    ((∀ v, i ≠ .push16 v) → (∀ v, i ≠ .push32 v) → i ≠ .pusha16 → i ≠ .pusha32 → (∀ a, i ≠ .fxsave a) → t.mem = s.mem)

/-- R60, R61, R68, R71: the accesses of a command that succeeds, with their order, addresses and widths; a command that is not named makes none. The
order of the two reads of a slot is the model's reading of R61 (log 16). -/
def Obligations.CommandsMakeExactlyTheirAccesses : Prop :=
  ∀ (i : Instr) (s t : State) (y : Word), exec i s = .next t → t.response = .ok y →
    t.bus = s.bus ++ (match i with
      | .push16 v => [.write (ea s (-2)) (toBytes 2 v)]
      | .push32 v => [.write (ea s (-4)) (toBytes 4 v)]
      | .pop16 => [.read (s.ssBase + spVal s) 2]
      | .pop32 => [.read (s.ssBase + spVal s) 4]
      | .pusha16 => .checkWritable (ea s (-16)) 16 ::
          indices.map (fun j => .write (pushaSlot s 2 j.val) (toBytes 2 (gpr16 s j)))
      | .pusha32 => .checkWritable (ea s (-32)) 32 ::
          indices.map (fun j => .write (pushaSlot s 4 j.val) (toBytes 4 s.gpr[j]))
      | .fxsave a => .checkWritable a 512 ::
          (fxImage s.params.mxcsrMask s.fx).map (fun e => .write (a + BitVec.ofNat 32 e.1) e.2)
      | .fxrstor a => .checkReadable a 512 :: .read (a + 24) 4 ::
          fxReads.map (fun e => .read (a + BitVec.ofNat 32 e.1) e.2)
      | _ => [])

/-! ### Reset and the invariant -/

/-- R230, R231, R27: a reset with any draw of the unspecified values clears the dirty mask and takes the drawn value of every other element but `fsw_rest`;
the external reset does the same from every state. That `fsw_rest` takes its draw with bits 13:11 cleared is the model's way to keep the invariant of R35
(log 17). -/
def Obligations.ResetTakesTheDrawnValues : Prop :=
  ∀ (r : ResetValues) (s : State), ∀ t ∈ [State.resetWith r, environmentAct (.reset r) s],
    t.fl.flagsChanged = 0 ∧ t.fl.flags = r.flags ∧ t.fl.lastOp1 = r.op1 ∧ t.fl.lastOp2 = r.op2 ∧
    t.fl.lastResult = r.result ∧ t.fl.lastAddResult = r.addResult ∧ t.fl.lastOpSize = r.opSize ∧
    t.gpr = r.gpr ∧ t.stackSize32 = r.stackSize32 ∧ t.fx = { r.fx with fswRest := r.fx.fswRest &&& 0xC7FF } ∧
    t.fx.fswRest &&& 0x3800 = 0

/-- The invariant holds right after reset, whatever values the reset draws. The canonical form of memory is the model's choice (log 7). -/
def Obligations.ResetMeetsTheInvariant : Prop :=
  ∀ r : ResetValues, Inv (State.resetWith r)

/-- R231: while the dirty mask is 0 the snapshot is unobservable: a flag read answers the same for every snapshot. -/
def Obligations.CleanSnapshotIsUnobservable : Prop :=
  ∀ (i : Instr) (s : State) (a b c d : Word) (n : OpSize), isFlagRead i = true → s.fl.flagsChanged = 0 →
    let f : FlagState := { s.fl with lastOp1 := a, lastOp2 := b, lastResult := c, lastAddResult := d, lastOpSize := n }
    exec i { s with fl := f } = mapNext (fun t => { t with fl := f }) (exec i s)

/-- Every step keeps the invariant: memory stays canonical (the model's choice, log 7), the dirty mask stays inside STATUS_MASK (R27), `fsw_rest[13:11]` stays 0 (R35). -/
def Obligations.EveryStepKeepsTheInvariant : Prop :=
  ∀ s t : State, Inv s → step s = .next t → Inv t
end

