-- ==== Sys2Proof/Laws/State.lean ====
section
/-! SUPPORT. One lemma per field and per named update of the state, so that no later proof unfolds an update. -/

namespace Sys2Proof.Machine

variable (s : State)

/-! ### setGpr -/

@[simp] theorem setGpr_gpr (i : Fin 8) (v : Word) : (setGpr i v s).gpr = s.gpr.set i.val v := rfl
@[simp] theorem setGpr_fl (i : Fin 8) (v : Word) : (setGpr i v s).fl = s.fl := rfl
@[simp] theorem setGpr_stackSize32 (i : Fin 8) (v : Word) : (setGpr i v s).stackSize32 = s.stackSize32 := rfl
@[simp] theorem setGpr_fx (i : Fin 8) (v : Word) : (setGpr i v s).fx = s.fx := rfl
@[simp] theorem setGpr_ssBase (i : Fin 8) (v : Word) : (setGpr i v s).ssBase = s.ssBase := rfl
@[simp] theorem setGpr_mem (i : Fin 8) (v : Word) : (setGpr i v s).mem = s.mem := rfl
@[simp] theorem setGpr_unreadable (i : Fin 8) (v : Word) : (setGpr i v s).unreadable = s.unreadable := rfl
@[simp] theorem setGpr_unwritable (i : Fin 8) (v : Word) : (setGpr i v s).unwritable = s.unwritable := rfl
@[simp] theorem setGpr_params (i : Fin 8) (v : Word) : (setGpr i v s).params = s.params := rfl
@[simp] theorem setGpr_inputs (i : Fin 8) (v : Word) : (setGpr i v s).inputs = s.inputs := rfl
@[simp] theorem setGpr_response (i : Fin 8) (v : Word) : (setGpr i v s).response = s.response := rfl
@[simp] theorem setGpr_bus (i : Fin 8) (v : Word) : (setGpr i v s).bus = s.bus := rfl
@[simp] theorem setGpr_draws (i : Fin 8) (v : Word) : (setGpr i v s).draws = s.draws := rfl

/-! ### record -/

@[simp] theorem record_gpr (c : BusCall) : (record c s).gpr = s.gpr := rfl
@[simp] theorem record_fl (c : BusCall) : (record c s).fl = s.fl := rfl
@[simp] theorem record_stackSize32 (c : BusCall) : (record c s).stackSize32 = s.stackSize32 := rfl
@[simp] theorem record_fx (c : BusCall) : (record c s).fx = s.fx := rfl
@[simp] theorem record_ssBase (c : BusCall) : (record c s).ssBase = s.ssBase := rfl
@[simp] theorem record_mem (c : BusCall) : (record c s).mem = s.mem := rfl
@[simp] theorem record_unreadable (c : BusCall) : (record c s).unreadable = s.unreadable := rfl
@[simp] theorem record_unwritable (c : BusCall) : (record c s).unwritable = s.unwritable := rfl
@[simp] theorem record_params (c : BusCall) : (record c s).params = s.params := rfl
@[simp] theorem record_inputs (c : BusCall) : (record c s).inputs = s.inputs := rfl
@[simp] theorem record_response (c : BusCall) : (record c s).response = s.response := rfl
@[simp] theorem record_bus (c : BusCall) : (record c s).bus = s.bus ++ [c] := rfl
@[simp] theorem record_draws (c : BusCall) : (record c s).draws = s.draws := rfl

/-! ### driveResult -/

@[simp] theorem driveResult_gpr (y : Word) : (driveResult y s).gpr = s.gpr := rfl
@[simp] theorem driveResult_fl (y : Word) : (driveResult y s).fl = s.fl := rfl
@[simp] theorem driveResult_stackSize32 (y : Word) : (driveResult y s).stackSize32 = s.stackSize32 := rfl
@[simp] theorem driveResult_fx (y : Word) : (driveResult y s).fx = s.fx := rfl
@[simp] theorem driveResult_ssBase (y : Word) : (driveResult y s).ssBase = s.ssBase := rfl
@[simp] theorem driveResult_mem (y : Word) : (driveResult y s).mem = s.mem := rfl
@[simp] theorem driveResult_unreadable (y : Word) : (driveResult y s).unreadable = s.unreadable := rfl
@[simp] theorem driveResult_unwritable (y : Word) : (driveResult y s).unwritable = s.unwritable := rfl
@[simp] theorem driveResult_params (y : Word) : (driveResult y s).params = s.params := rfl
@[simp] theorem driveResult_inputs (y : Word) : (driveResult y s).inputs = s.inputs := rfl
@[simp] theorem driveResult_response (y : Word) : (driveResult y s).response = .ok y := rfl
@[simp] theorem driveResult_bus (y : Word) : (driveResult y s).bus = s.bus := rfl
@[simp] theorem driveResult_draws (y : Word) : (driveResult y s).draws = s.draws := rfl

/-! ### takeFault -/

@[simp] theorem takeFault_gpr (f : FaultSignal) : (takeFault f s).gpr = s.gpr := rfl
@[simp] theorem takeFault_fl (f : FaultSignal) : (takeFault f s).fl = s.fl := rfl
@[simp] theorem takeFault_stackSize32 (f : FaultSignal) : (takeFault f s).stackSize32 = s.stackSize32 := rfl
@[simp] theorem takeFault_fx (f : FaultSignal) : (takeFault f s).fx = s.fx := rfl
@[simp] theorem takeFault_ssBase (f : FaultSignal) : (takeFault f s).ssBase = s.ssBase := rfl
@[simp] theorem takeFault_mem (f : FaultSignal) : (takeFault f s).mem = s.mem := rfl
@[simp] theorem takeFault_unreadable (f : FaultSignal) : (takeFault f s).unreadable = s.unreadable := rfl
@[simp] theorem takeFault_unwritable (f : FaultSignal) : (takeFault f s).unwritable = s.unwritable := rfl
@[simp] theorem takeFault_params (f : FaultSignal) : (takeFault f s).params = s.params := rfl
@[simp] theorem takeFault_inputs (f : FaultSignal) : (takeFault f s).inputs = s.inputs := rfl
@[simp] theorem takeFault_response (f : FaultSignal) : (takeFault f s).response = .fault f := rfl
@[simp] theorem takeFault_bus (f : FaultSignal) : (takeFault f s).bus = s.bus := rfl
@[simp] theorem takeFault_draws (f : FaultSignal) : (takeFault f s).draws = s.draws := rfl

/-! ### adjust -/

@[simp] theorem adjust_fl (amt : Word) : (adjust amt s).fl = s.fl := by unfold adjust setGpr16; split <;> rfl
@[simp] theorem adjust_stackSize32 (amt : Word) : (adjust amt s).stackSize32 = s.stackSize32 := by unfold adjust setGpr16; split <;> rfl
@[simp] theorem adjust_fx (amt : Word) : (adjust amt s).fx = s.fx := by unfold adjust setGpr16; split <;> rfl
@[simp] theorem adjust_ssBase (amt : Word) : (adjust amt s).ssBase = s.ssBase := by unfold adjust setGpr16; split <;> rfl
@[simp] theorem adjust_mem (amt : Word) : (adjust amt s).mem = s.mem := by unfold adjust setGpr16; split <;> rfl
@[simp] theorem adjust_unreadable (amt : Word) : (adjust amt s).unreadable = s.unreadable := by unfold adjust setGpr16; split <;> rfl
@[simp] theorem adjust_unwritable (amt : Word) : (adjust amt s).unwritable = s.unwritable := by unfold adjust setGpr16; split <;> rfl
@[simp] theorem adjust_params (amt : Word) : (adjust amt s).params = s.params := by unfold adjust setGpr16; split <;> rfl
@[simp] theorem adjust_inputs (amt : Word) : (adjust amt s).inputs = s.inputs := by unfold adjust setGpr16; split <;> rfl
@[simp] theorem adjust_response (amt : Word) : (adjust amt s).response = s.response := by unfold adjust setGpr16; split <;> rfl
@[simp] theorem adjust_bus (amt : Word) : (adjust amt s).bus = s.bus := by unfold adjust setGpr16; split <;> rfl
@[simp] theorem adjust_draws (amt : Word) : (adjust amt s).draws = s.draws := by unfold adjust setGpr16; split <;> rfl

/-- `adjust` in 32-bit stack mode (41_stack.md R142). -/
theorem adjust_gpr_32 (amt : Word) (h : s.stackSize32 = true) :
    (adjust amt s).gpr = s.gpr.set espIndex.val (s.gpr[espIndex] + amt) := by simp [adjust, h]

/-- `adjust` in 16-bit stack mode (41_stack.md R142, 10_state.md R22). -/
theorem adjust_gpr_16 (amt : Word) (h : s.stackSize32 = false) :
    (adjust amt s).gpr = s.gpr.set espIndex.val
      (s.gpr[espIndex].extractLsb' 16 16 ++ (gpr16 s espIndex + amt.extractLsb' 0 16)) := by simp [adjust, setGpr16, h]

/-- A register other than ESP is not adjusted. -/
theorem adjust_gpr_other (amt : Word) (i : Fin 8) (h : i ≠ espIndex) : (adjust amt s).gpr[i] = s.gpr[i] := by
  have h' : espIndex.val ≠ i.val := fun e => h (Fin.ext e.symm)
  unfold adjust setGpr16
  split <;> simp [setGpr, h']

/-! ### The reset state -/

@[simp] theorem resetWith_gpr (r : ResetValues) : (State.resetWith r).gpr = r.gpr := rfl
@[simp] theorem resetWith_mem (r : ResetValues) : (State.resetWith r).mem = [] := rfl
@[simp] theorem resetWith_flagsChanged (r : ResetValues) : (State.resetWith r).fl.flagsChanged = 0 := rfl
@[simp] theorem resetWith_inputs (r : ResetValues) : (State.resetWith r).inputs = [] := rfl

end Sys2Proof.Machine
end

