-- ==== Sys2Proof/Laws/Memory.lean ====
section
/-! SUPPORT. Memory bytes: read after write, the canonical form, and the byte order. -/

namespace Sys2Proof.Machine

/-! ### One byte -/

theorem memGet_filter_self (m : Memory) (a : Nat) : memGet (m.filter (fun c => c.1 != a)) a = memDefault := by
  induction m with
  | nil => rfl
  | cons c m ih =>
    obtain ⟨k, b⟩ := c
    by_cases h : k = a
    · simpa [h] using ih
    · simp [h, memGet, ih]

theorem memGet_filter_other (m : Memory) (a x : Nat) (h : x ≠ a) :
    memGet (m.filter (fun c => c.1 != a)) x = memGet m x := by
  induction m with
  | nil => rfl
  | cons c m ih =>
    obtain ⟨k, b⟩ := c
    by_cases hk : k = a
    · have : k ≠ x := by omega
      simp [hk, memGet, ih, h.symm]
    · simp [hk, memGet, ih]

theorem memGet_memInsert_other (m : Memory) (a x : Nat) (v : Byte) (h : x ≠ a) :
    memGet (memInsert m a v) x = memGet m x := by
  induction m with
  | nil => simp [memInsert, memGet, h.symm]
  | cons c m ih =>
    obtain ⟨k, b⟩ := c
    simp only [memInsert]
    split
    · simp [memGet, h.symm]
    · simp [memGet, ih]

theorem memGet_memInsert_self (m : Memory) (a : Nat) (v : Byte) (h : ∀ c ∈ m, c.1 ≠ a) :
    memGet (memInsert m a v) a = v := by
  induction m with
  | nil => simp [memInsert, memGet]
  | cons c m ih =>
    obtain ⟨k, b⟩ := c
    have hk : k ≠ a := h (k, b) (by simp)
    simp only [memInsert]
    split
    · simp [memGet]
    · simp [memGet, hk, ih (fun c hc => h c (by simp [hc]))]

/-- Read after write of one byte, on every memory. -/
@[simp] theorem memGet_memSet (m : Memory) (a x : Nat) (v : Byte) :
    memGet (memSet m a v) x = if x = a then v else memGet m x := by
  by_cases hx : x = a
  · subst hx
    simp only [memSet, if_true]
    split
    · next h => rw [memGet_filter_self, h]
    · exact memGet_memInsert_self _ _ _ (by simp)
  · simp only [memSet, hx, if_false]
    split
    · exact memGet_filter_other m a x hx
    · rw [memGet_memInsert_other _ _ _ _ hx, memGet_filter_other m a x hx]

/-! ### The canonical form -/

theorem memory_wf_iff (m : Memory) :
    m.wf = true ↔ m.Pairwise (fun c d => c.1 < d.1) ∧ ∀ c ∈ m, c.1 < 2 ^ 32 ∧ c.2 ≠ memDefault := by
  simp [Memory.wf]

theorem mem_memInsert (m : Memory) (a : Nat) (v : Byte) (c : Host.Cell) :
    c ∈ memInsert m a v ↔ c = (a, v) ∨ c ∈ m := by
  induction m with
  | nil => simp [memInsert]
  | cons d m ih =>
    obtain ⟨k, b⟩ := d
    simp only [memInsert]
    split
    · simp
    · simp only [List.mem_cons, ih]; tauto

theorem pairwise_memInsert (m : Memory) (a : Nat) (v : Byte) (h : m.Pairwise (fun c d => c.1 < d.1))
    (ha : ∀ c ∈ m, c.1 ≠ a) : (memInsert m a v).Pairwise (fun c d => c.1 < d.1) := by
  induction m with
  | nil => simp [memInsert]
  | cons d m ih =>
    obtain ⟨k, b⟩ := d
    obtain ⟨h1, h2⟩ := List.pairwise_cons.1 h
    simp only [memInsert]
    split
    · next hlt =>
      refine List.pairwise_cons.2 ⟨fun c hc => ?_, h⟩
      rcases List.mem_cons.1 hc with rfl | hc
      · exact hlt
      · exact lt_trans hlt (h1 c hc)
    · next hge =>
      refine List.pairwise_cons.2 ⟨fun c hc => ?_, ih h2 fun c hc => ha c (by simp [hc])⟩
      rcases (mem_memInsert m a v c).1 hc with rfl | hc
      · have := ha (k, b) (by simp)
        simp only at this ⊢
        omega
      · exact h1 c hc

/-- Writing one byte keeps the canonical form. -/
theorem memSet_wf (m : Memory) (a : Nat) (v : Byte) (ha : a < 2 ^ 32) (h : m.wf = true) : (memSet m a v).wf = true := by
  rw [memory_wf_iff] at h ⊢
  have hp : (m.filter (fun c => c.1 != a)).Pairwise (fun c d => c.1 < d.1) := h.1.filter _
  have hb : ∀ c ∈ m.filter (fun c => c.1 != a), c.1 < 2 ^ 32 ∧ c.2 ≠ memDefault := fun c hc => h.2 c (List.mem_filter.1 hc).1
  simp only [memSet]
  split
  · exact ⟨hp, hb⟩
  · next hv =>
    refine ⟨pairwise_memInsert _ _ _ hp (by simp), fun c hc => ?_⟩
    rcases (mem_memInsert _ _ _ _).1 hc with rfl | hc
    · exact ⟨ha, hv⟩
    · exact hb c hc

/-- Writing bytes keeps the canonical form. -/
theorem storeBytes_wf (bs : List Byte) (m : Memory) (a : Word) (h : m.wf = true) : (storeBytes m a bs).wf = true := by
  induction bs generalizing m a with
  | nil => exact h
  | cons b bs ih => exact ih _ _ (memSet_wf m _ b a.isLt h)

/-- Equal reads make equal memories, in canonical form. -/
theorem memGet_of_mem (m : Memory) (h : m.Pairwise (fun c d => c.1 < d.1)) (c : Host.Cell) (hc : c ∈ m) :
    memGet m c.1 = c.2 := by
  induction m with
  | nil => simp at hc
  | cons d m ih =>
    obtain ⟨h1, h2⟩ := List.pairwise_cons.1 h
    rcases List.mem_cons.1 hc with rfl | hc
    · simp [memGet]
    · have := h1 c hc
      simp [memGet, Nat.ne_of_lt this, ih h2 hc]

/-! ### Runs of addresses -/

@[simp] theorem addrsFrom_length (a : Word) (n : Nat) : (addrsFrom a n).length = n := by
  induction n generalizing a with
  | zero => rfl
  | succ n ih => simp [addrsFrom, ih]

/-- The addresses of a run: its base and the offsets below its length (20_memory.md R63). -/
theorem mem_addrsFrom (a : Word) (n : Nat) (x : Word) :
    x ∈ addrsFrom a n ↔ ∃ k, k < n ∧ x = a + BitVec.ofNat 32 k := by
  induction n generalizing a with
  | zero => simp [addrsFrom]
  | succ n ih =>
    simp only [addrsFrom, List.mem_cons, ih]
    constructor
    · rintro (rfl | ⟨k, hk, rfl⟩)
      · exact ⟨0, by omega, by simp⟩
      · exact ⟨k + 1, by omega, by rw [BitVec.add_assoc]; congr 1; apply BitVec.eq_of_toNat_eq; simp [Nat.add_comm]⟩
    · rintro ⟨k, hk, rfl⟩
      cases k with
      | zero => left; simp
      | succ k =>
        exact .inr ⟨k, by omega, by rw [BitVec.add_assoc]; congr 1; apply BitVec.eq_of_toNat_eq; simp [Nat.add_comm]⟩

/-- The first address of a run is not among the others, below a whole turn of the address space. -/
theorem self_not_mem_addrsFrom_succ (a : Word) (n : Nat) (h : n < 2 ^ 32) : a ∉ addrsFrom (a + 1#32) n := by
  rw [mem_addrsFrom]
  rintro ⟨k, hk, he⟩
  have := congrArg BitVec.toNat he
  simp only [BitVec.toNat_add, BitVec.toNat_ofNat] at this
  have := a.isLt
  omega

/-! ### Many bytes -/

@[simp] theorem loadBytes_length (m : Memory) (a : Word) (n : Nat) : (loadBytes m a n).length = n := by
  induction n generalizing a with
  | zero => rfl
  | succ n ih => simp [loadBytes, ih]

/-- A store leaves every other byte alone. -/
theorem memGet_storeBytes_outside (bs : List Byte) (m : Memory) (a x : Word) (h : x ∉ addrsFrom a bs.length) :
    memGet (storeBytes m a bs) x.toNat = memGet m x.toNat := by
  induction bs generalizing m a with
  | nil => rfl
  | cons b bs ih =>
    simp only [List.length_cons, addrsFrom, List.mem_cons, not_or] at h
    have hx : x.toNat ≠ a.toNat := fun e => h.1 (BitVec.eq_of_toNat_eq e)
    simp [storeBytes, ih _ _ h.2, hx]

/-- A load sees only the bytes of its run. -/
theorem loadBytes_congr (n : Nat) (m m' : Memory) (a : Word)
    (h : ∀ x ∈ addrsFrom a n, memGet m x.toNat = memGet m' x.toNat) : loadBytes m a n = loadBytes m' a n := by
  induction n generalizing a with
  | zero => rfl
  | succ n ih =>
    simp only [addrsFrom, List.mem_cons, forall_eq_or_imp] at h
    simp [loadBytes, h.1, ih _ h.2]

/-- A store to a disjoint run is not seen by a load. -/
theorem loadBytes_storeBytes_disjoint (n : Nat) (bs : List Byte) (m : Memory) (a c : Word)
    (h : ∀ x ∈ addrsFrom c n, x ∉ addrsFrom a bs.length) : loadBytes (storeBytes m a bs) c n = loadBytes m c n :=
  loadBytes_congr n _ _ c fun x hx => memGet_storeBytes_outside bs m a x (h x hx)

/-- A load of the bytes just stored (20_memory.md R62). -/
theorem loadBytes_storeBytes_same (bs : List Byte) (m : Memory) (a : Word) (h : bs.length ≤ 2 ^ 32) :
    loadBytes (storeBytes m a bs) a bs.length = bs := by
  induction bs generalizing m a with
  | nil => rfl
  | cons b bs ih =>
    simp only [List.length_cons] at h
    have hn : a ∉ addrsFrom (a + 1#32) bs.length := self_not_mem_addrsFrom_succ a _ (by omega)
    simp only [List.length_cons, loadBytes, storeBytes]
    rw [memGet_storeBytes_outside bs _ _ _ hn, ih _ _ (by omega)]
    simp

theorem loadBytes_add (n k : Nat) (m : Memory) (a : Word) :
    loadBytes m a (n + k) = loadBytes m a n ++ loadBytes m (a + BitVec.ofNat 32 n) k := by
  induction n generalizing a with
  | zero => simp [loadBytes]
  | succ n ih =>
    have : a + 1#32 + BitVec.ofNat 32 n = a + BitVec.ofNat 32 (n + 1) := by
      rw [BitVec.add_assoc]; congr 1; apply BitVec.eq_of_toNat_eq; simp [Nat.add_comm]
    rw [Nat.succ_add]
    simp [loadBytes, ih, this]

/-! ### Byte order -/

@[simp] theorem toBytes_length {w : Nat} (n : Nat) (v : BitVec w) : (toBytes n v).length = n := by
  induction n generalizing v with
  | zero => rfl
  | succ n ih => simp [toBytes, ih]

/-- Byte k is `v[8k+7:8k]` (20_memory.md R62). -/
theorem toBytes_getElem {w : Nat} (n : Nat) (v : BitVec w) (k : Nat) (h : k < (toBytes n v).length) :
    (toBytes n v)[k] = v.extractLsb' (8 * k) 8 := by
  induction n generalizing v k with
  | zero => simp [toBytes] at h
  | succ n ih =>
    cases k with
    | zero => ext i hi; simp [toBytes]
    | succ k =>
      simp only [toBytes, List.getElem_cons_succ]
      rw [ih]
      ext i hi
      simp only [BitVec.getElem_extractLsb', BitVec.getLsbD_ushiftRight]
      congr 1
      omega

/-- Bit i of a value made of bytes is bit `i mod 8` of byte `i / 8`. -/
theorem fromBytes_getLsbD (w : Nat) (bs : List Byte) (i : Nat) (hi : i < w) :
    (fromBytes w bs).getLsbD i = (bs.getD (i / 8) 0).getLsbD (i % 8) := by
  induction bs generalizing i with
  | nil => simp [fromBytes]
  | cons b bs ih =>
    simp only [fromBytes, BitVec.getLsbD_or, BitVec.getLsbD_setWidth, BitVec.getLsbD_shiftLeft, hi, decide_true, Bool.true_and]
    by_cases h8 : i < 8
    · simp [h8, Nat.div_eq_of_lt h8, Nat.mod_eq_of_lt h8]
    · have h1 : b.getLsbD i = false := BitVec.getLsbD_of_ge b i (by omega)
      have h2 : i / 8 = (i - 8) / 8 + 1 := by omega
      have h3 : i % 8 = (i - 8) % 8 := by omega
      rw [h1, ih (i - 8) (by omega), h2, h3]
      simp [h8]

/-- The bytes of a value make the value again (20_memory.md R62). -/
theorem fromBytes_toBytes (n : Nat) (w : Nat) (v : BitVec w) (h : w ≤ 8 * n) : fromBytes w (toBytes n v) = v := by
  apply BitVec.eq_of_getLsbD_eq
  intro i hi
  have hk : i / 8 < (toBytes n v).length := by simp; omega
  rw [fromBytes_getLsbD w _ i hi, List.getD_eq_getElem _ _ hk, toBytes_getElem]
  simp only [BitVec.getLsbD_extractLsb']
  have : i % 8 < 8 := by omega
  have : 8 * (i / 8) + i % 8 = i := by omega
  simp [*]

end Sys2Proof.Machine
end

