-- ==== Sys2Proof/Laws/Ops.lean ====
section
/-! SUPPORT. What each shared operation can do, said once: it goes on with this state, or it raises this fault. -/

namespace Sys2Proof.Machine

/-! ### Permissions -/

theorem mem_badReads (s : State) (a : Word) (n : Nat) (x : Word) :
    x ∈ badReads s a n ↔ x ∈ addrsFrom a n ∧ byteReadable s x = false := by
  simp [badReads, byteReadable]; tauto

theorem mem_badWrites (s : State) (a : Word) (n : Nat) (x : Word) :
    x ∈ badWrites s a n ↔ x ∈ addrsFrom a n ∧ byteWritable s x = false := by
  simp [badWrites, byteWritable]; tauto

theorem badReads_eq_nil (s : State) (a : Word) (n : Nat) : badReads s a n = [] ↔ AllReadable s a n := by
  simp [List.eq_nil_iff_forall_not_mem, mem_badReads, AllReadable]

theorem badWrites_eq_nil (s : State) (a : Word) (n : Nat) : badWrites s a n = [] ↔ AllWritable s a n := by
  simp [List.eq_nil_iff_forall_not_mem, mem_badWrites, AllWritable]

/-- Permissions depend on nothing but the permission fields. -/
theorem AllWritable.congr {s t : State} {a : Word} {n : Nat} (h : t.unwritable = s.unwritable) :
    AllWritable t a n ↔ AllWritable s a n := by simp [AllWritable, byteWritable, h]

theorem AllReadable.congr {s t : State} {a : Word} {n : Nat} (h : t.unreadable = s.unreadable) :
    AllReadable t a n ↔ AllReadable s a n := by simp [AllReadable, byteReadable, h]

/-- A part of a permitted run is permitted. -/
theorem AllWritable.sub {s : State} {a b : Word} {n k : Nat} (h : AllWritable s a n)
    (hs : ∀ x ∈ addrsFrom b k, x ∈ addrsFrom a n) : AllWritable s b k := fun x hx => h x (hs x hx)

theorem AllReadable.sub {s : State} {a b : Word} {n k : Nat} (h : AllReadable s a n)
    (hs : ∀ x ∈ addrsFrom b k, x ∈ addrsFrom a n) : AllReadable s b k := fun x hx => h x (hs x hx)

/-- A run of `k` bytes at offset `off` lies in the run of `n` bytes when `off + k ≤ n`. -/
theorem addrsFrom_sub (a : Word) (off k n : Nat) (h : off + k ≤ n) :
    ∀ x ∈ addrsFrom (a + BitVec.ofNat 32 off) k, x ∈ addrsFrom a n := by
  intro x hx
  obtain ⟨j, hj, rfl⟩ := (mem_addrsFrom _ _ _).1 hx
  refine (mem_addrsFrom _ _ _).2 ⟨off + j, by omega, ?_⟩
  rw [BitVec.add_assoc, BitVec.ofNat_add]

/-! ### A raise or not -/

@[simp] theorem andThen_going {α β : Type} (v : α) (s : State) (k : α → State → Progress β) :
    andThen (.going v s) k = k v s := rfl

@[simp] theorem andThen_raised {α β : Type} (f : FaultSignal) (s : State) (k : α → State → Progress β) :
    andThen (.raised f s : Progress α) k = .raised f s := rfl

@[simp] theorem finish_going (y : Word) (s : State) : finish (.going y s) = .next (driveResult y s) := rfl

@[simp] theorem finish_raised (f : FaultSignal) (s : State) : finish (.raised f s) = .next (takeFault f s) := rfl

@[simp] theorem finishNoResult_going (s : State) : finishNoResult (.going () s) = .next (driveResult 0 s) := rfl

@[simp] theorem finishNoResult_raised (f : FaultSignal) (s : State) : finishNoResult (.raised f s) = .next (takeFault f s) := rfl

@[simp] theorem faultUnlessAll_nil (acc : Access) (s : State) : faultUnlessAll [] acc s = .going () s := rfl

/-- The reported address is one of the failing bytes (20_memory.md R64). -/
theorem pickFaultAddr_mem (bad : List Word) (n : Nat) (h : bad ≠ []) : pickFaultAddr bad n ∈ bad := by
  have : Config.faultDraw n % bad.length < bad.length := Nat.mod_lt _ (List.length_pos_iff.2 h)
  rw [pickFaultAddr, List.getD_eq_getElem _ _ this]
  exact List.getElem_mem this

theorem faultUnlessAll_raises (bad : List Word) (acc : Access) (s : State) (h : bad ≠ []) :
    ∃ x ∈ bad, faultUnlessAll bad acc s = .raised (.memFault x acc) { s with draws := s.draws + 1 } := by
  cases bad with
  | nil => exact absurd rfl h
  | cons b bs => exact ⟨_, pickFaultAddr_mem (b :: bs) s.draws h, rfl⟩

/-! ### The primitives -/

theorem checkWritable_ok (a : Word) (n : Nat) (s : State) (h : AllWritable s a n) :
    checkWritable a n s = .going () (record (.checkWritable a n) s) := by
  simp [checkWritable, (badWrites_eq_nil s a n).2 h]

theorem checkWritable_fault (a : Word) (n : Nat) (s : State) (h : ¬ AllWritable s a n) :
    ∃ x ∈ addrsFrom a n, byteWritable s x = false ∧ checkWritable a n s =
      .raised (.memFault x .write) { record (.checkWritable a n) s with draws := s.draws + 1 } := by
  obtain ⟨x, hx, he⟩ := faultUnlessAll_raises (badWrites s a n) .write (record (.checkWritable a n) s)
    (fun e => h ((badWrites_eq_nil s a n).1 e))
  exact ⟨x, ((mem_badWrites s a n x).1 hx).1, ((mem_badWrites s a n x).1 hx).2, he⟩

theorem checkReadable_ok (a : Word) (n : Nat) (s : State) (h : AllReadable s a n) :
    checkReadable a n s = .going () (record (.checkReadable a n) s) := by
  simp [checkReadable, (badReads_eq_nil s a n).2 h]

theorem checkReadable_fault (a : Word) (n : Nat) (s : State) (h : ¬ AllReadable s a n) :
    ∃ x ∈ addrsFrom a n, byteReadable s x = false ∧ checkReadable a n s =
      .raised (.memFault x .read) { record (.checkReadable a n) s with draws := s.draws + 1 } := by
  obtain ⟨x, hx, he⟩ := faultUnlessAll_raises (badReads s a n) .read (record (.checkReadable a n) s)
    (fun e => h ((badReads_eq_nil s a n).1 e))
  exact ⟨x, ((mem_badReads s a n x).1 hx).1, ((mem_badReads s a n x).1 hx).2, he⟩

theorem readBytes_ok (a : Word) (n : Nat) (s : State) (h : AllReadable s a n) :
    readBytes a n s = .going (loadBytes s.mem a n) (record (.read a n) s) := by
  simp [readBytes, (badReads_eq_nil s a n).2 h]

theorem readBytes_fault (a : Word) (n : Nat) (s : State) (h : ¬ AllReadable s a n) :
    ∃ x ∈ addrsFrom a n, byteReadable s x = false ∧ readBytes a n s =
      .raised (.memFault x .read) { record (.read a n) s with draws := s.draws + 1 } := by
  obtain ⟨x, hx, he⟩ := faultUnlessAll_raises (badReads s a n) .read (record (.read a n) s)
    (fun e => h ((badReads_eq_nil s a n).1 e))
  exact ⟨x, ((mem_badReads s a n x).1 hx).1, ((mem_badReads s a n x).1 hx).2, by simp [readBytes, he]⟩

theorem writeBytes_ok (a : Word) (bs : List Byte) (s : State) (h : AllWritable s a bs.length) :
    writeBytes a bs s = .going () { record (.write a bs) s with mem := storeBytes s.mem a bs } := by
  simp [writeBytes, (badWrites_eq_nil s a bs.length).2 h]

theorem writeBytes_fault (a : Word) (bs : List Byte) (s : State) (h : ¬ AllWritable s a bs.length) :
    ∃ x ∈ addrsFrom a bs.length, byteWritable s x = false ∧ writeBytes a bs s =
      .raised (.memFault x .write) { record (.write a bs) s with draws := s.draws + 1 } := by
  obtain ⟨x, hx, he⟩ := faultUnlessAll_raises (badWrites s a bs.length) .write (record (.write a bs) s)
    (fun e => h ((badWrites_eq_nil s a bs.length).1 e))
  exact ⟨x, ((mem_badWrites s a _ x).1 hx).1, ((mem_badWrites s a _ x).1 hx).2, by simp [writeBytes, he]⟩

theorem memRead_ok (w : Nat) (a : Word) (s : State) (h : AllReadable s a (w / 8)) :
    memRead w a s = .going (fromBytes w (loadBytes s.mem a (w / 8))) (record (.read a (w / 8)) s) := by
  simp [memRead, readBytes_ok a _ s h]

theorem memRead_fault (w : Nat) (a : Word) (s : State) (h : ¬ AllReadable s a (w / 8)) :
    ∃ x ∈ addrsFrom a (w / 8), byteReadable s x = false ∧ memRead w a s =
      .raised (.memFault x .read) { record (.read a (w / 8)) s with draws := s.draws + 1 } := by
  obtain ⟨x, hx, hr, he⟩ := readBytes_fault a _ s h
  exact ⟨x, hx, hr, by simp [memRead, he]⟩

/-! ### Push and pop -/

theorem pushValue_ok {w : Nat} (n : Nat) (v : BitVec w) (s : State) (h : AllWritable s (ea s (-(BitVec.ofNat 32 n))) n) :
    pushValue n v s = .going () (adjust (-(BitVec.ofNat 32 n))
      { record (.write (ea s (-(BitVec.ofNat 32 n))) (toBytes n v)) s with
        mem := storeBytes s.mem (ea s (-(BitVec.ofNat 32 n))) (toBytes n v) }) := by
  have := writeBytes_ok (ea s (-(BitVec.ofNat 32 n))) (toBytes n v) s (by simpa using h)
  simp [pushValue, memWrite, this]

theorem pushValue_fault {w : Nat} (n : Nat) (v : BitVec w) (s : State)
    (h : ¬ AllWritable s (ea s (-(BitVec.ofNat 32 n))) n) :
    ∃ x ∈ addrsFrom (ea s (-(BitVec.ofNat 32 n))) n, byteWritable s x = false ∧ pushValue n v s =
      .raised (.memFault x .write)
        { record (.write (ea s (-(BitVec.ofNat 32 n))) (toBytes n v)) s with draws := s.draws + 1 } := by
  obtain ⟨x, hx, hw, he⟩ := writeBytes_fault (ea s (-(BitVec.ofNat 32 n))) (toBytes n v) s (by simpa using h)
  exact ⟨x, by simpa using hx, hw, by simp [pushValue, memWrite, he]⟩

theorem popValue_ok (w : Nat) (s : State) (h : AllReadable s (s.ssBase + spVal s) (w / 8)) :
    popValue w s = .going (fromBytes w (loadBytes s.mem (s.ssBase + spVal s) (w / 8)))
      (adjust (BitVec.ofNat 32 (w / 8)) (record (.read (s.ssBase + spVal s) (w / 8)) s)) := by
  simp [popValue, memRead_ok w _ s h]

theorem popValue_fault (w : Nat) (s : State) (h : ¬ AllReadable s (s.ssBase + spVal s) (w / 8)) :
    ∃ x ∈ addrsFrom (s.ssBase + spVal s) (w / 8), byteReadable s x = false ∧ popValue w s =
      .raised (.memFault x .read)
        { record (.read (s.ssBase + spVal s) (w / 8)) s with draws := s.draws + 1 } := by
  obtain ⟨x, hx, hr, he⟩ := memRead_fault w _ s h
  exact ⟨x, hx, hr, by simp [popValue, he]⟩

/-! ### Stack addresses -/

/-- `ea` sees the pointer only through the stack mode, `ss_base` and ESP (41_stack.md R141). -/
theorem ea_congr {s t : State} (hm : t.stackSize32 = s.stackSize32) (hb : t.ssBase = s.ssBase)
    (hg : t.gpr[espIndex] = s.gpr[espIndex]) (off : Word) : ea t off = ea s off := by
  simp only [ea, hm, hb, gpr16, hg]

/-- The address of POP "equals ea(S, 0)" (R146). -/
theorem ea_zero (s : State) : ea s 0 = s.ssBase + spVal s := by
  unfold ea spVal
  split <;> simp

/-- The low half of a word made of halves (10_state.md R22). -/
theorem halves_low (x y : Half) : (x ++ y).extractLsb' 0 16 = y := by
  apply BitVec.eq_of_getLsbD_eq
  intro i hi
  rw [BitVec.getLsbD_extractLsb', BitVec.getLsbD_append]
  simp [hi]

/-- The high half of a word made of halves (10_state.md R22). -/
theorem halves_high (x y : Half) : (x ++ y).extractLsb' 16 16 = x := by
  apply BitVec.eq_of_getLsbD_eq
  intro i hi
  rw [BitVec.getLsbD_extractLsb', BitVec.getLsbD_append]
  simp [hi]

/-- Adjusting the pointer moves every stack address by the amount (R141, R142). -/
theorem ea_adjust (s : State) (amt off : Word) : ea (adjust amt s) off = ea s (amt + off) := by
  unfold ea adjust setGpr16 gpr16
  by_cases h : s.stackSize32 = true
  · simp [h, BitVec.add_assoc]
  · have hx : (amt + off).extractLsb' 0 16 = amt.extractLsb' 0 16 + off.extractLsb' 0 16 := by
      apply BitVec.eq_of_toNat_eq; simp
    simp [h, hx, halves_low, BitVec.add_assoc]

/-- Two adjustments are one (R142). -/
theorem adjust_adjust (s : State) (x y : Word) : adjust x (adjust y s) = adjust (y + x) s := by
  unfold adjust setGpr16 gpr16
  by_cases h : s.stackSize32 = true
  · simp [h, setGpr, BitVec.add_assoc]
  · have hx : (y + x).extractLsb' 0 16 = y.extractLsb' 0 16 + x.extractLsb' 0 16 := by
      apply BitVec.eq_of_toNat_eq; simp
    simp [h, setGpr, hx, halves_low, halves_high, BitVec.add_assoc]

/-- Adjusting by nothing changes nothing. -/
theorem adjust_zero (s : State) : adjust 0 s = s := by
  have hs : ∀ v : Vector Word 8, v.set 4 v[4] = v := by intro v; simp
  have hb : ∀ x : Word, x.extractLsb' 16 16 ++ x.extractLsb' 0 16 = x := by
    intro x; ext i hi; simp only [BitVec.getElem_append, BitVec.getElem_extractLsb']
    split
    · simp [hi]
    · rw [BitVec.getElem_eq_testBit_toNat]; simp [show 16 + (i - 16) = i by omega, BitVec.getLsbD]
  unfold adjust setGpr16 gpr16 setGpr
  split
  · simp [espIndex]
  · simp [espIndex, hb]

/-! ### Runs of writes and reads -/

/-- The memory after a list of stores at offsets from a base. -/
def storeFields (m : Memory) (a : Word) : List (Nat × List Byte) → Memory
  | [] => m
  | (off, bs) :: rest => storeFields (storeBytes m (a + BitVec.ofNat 32 off) bs) a rest

theorem writeFields_ok (a : Word) (fields : List (Nat × List Byte)) (s : State)
    (h : ∀ e ∈ fields, AllWritable s (a + BitVec.ofNat 32 e.1) e.2.length) :
    writeFields a fields s = .going () { s with
      mem := storeFields s.mem a fields
      bus := s.bus ++ fields.map (fun e => .write (a + BitVec.ofNat 32 e.1) e.2) } := by
  induction fields generalizing s with
  | nil => simp [writeFields, storeFields]
  | cons e rest ih =>
    obtain ⟨off, bs⟩ := e
    have h1 := h (off, bs) (by simp)
    rw [writeFields, writeBytes_ok _ _ _ h1, andThen_going, ih]
    · simp [storeFields, record]
    · intro e he
      exact (AllWritable.congr rfl).2 (h e (by simp [he]))

theorem storeFields_wf (fields : List (Nat × List Byte)) (m : Memory) (a : Word) (h : m.wf = true) :
    (storeFields m a fields).wf = true := by
  induction fields generalizing m with
  | nil => exact h
  | cons e rest ih => exact ih _ (storeBytes_wf e.2 m _ h)

theorem memGet_storeFields_outside (fields : List (Nat × List Byte)) (m : Memory) (a x : Word)
    (h : ∀ e ∈ fields, x ∉ addrsFrom (a + BitVec.ofNat 32 e.1) e.2.length) :
    memGet (storeFields m a fields) x.toNat = memGet m x.toNat := by
  induction fields generalizing m with
  | nil => rfl
  | cons e rest ih =>
    rw [storeFields, ih _ fun e he => h e (by simp [he])]
    exact memGet_storeBytes_outside e.2 m _ x (h e (by simp))

theorem readFields_ok (a : Word) (fields : List (Nat × Nat)) (s : State)
    (h : ∀ e ∈ fields, AllReadable s (a + BitVec.ofNat 32 e.1) e.2) :
    readFields a fields s = .going (fields.map (fun e => (e.1, loadBytes s.mem (a + BitVec.ofNat 32 e.1) e.2)))
      { s with bus := s.bus ++ fields.map (fun e => .read (a + BitVec.ofNat 32 e.1) e.2) } := by
  induction fields generalizing s with
  | nil => simp [readFields]
  | cons e rest ih =>
    obtain ⟨off, n⟩ := e
    rw [readFields, readBytes_ok _ _ _ (h (off, n) (by simp)), andThen_going, ih]
    · simp [record]
    · intro e he
      exact (AllReadable.congr rfl).2 (h e (by simp [he]))

/-- The writes of FXSAVE stay inside the 512 checked bytes (42_fxstate.md R170, R174). -/
theorem fxImage_inside (mask : Word) (x : FxState) : ∀ e ∈ fxImage mask x, e.1 + e.2.length ≤ 512 := by
  simp [fxImage, indices]

/-- The reads of FXRSTOR stay inside the 512 checked bytes (R175). -/
theorem fxReads_inside : ∀ e ∈ fxReads, e.1 + e.2 ≤ 512 := by decide

/-- Pushes, one after the other: all of them when every slot is writable, else the ones before the first slot that is not
(41_stack.md R148, 70_reset_and_hazards.md R235). -/
theorem pushValues_cons {w : Nat} (n : Nat) (v : BitVec w) (vs : List (BitVec w)) (s : State) :
    pushValues n (v :: vs) s = andThen (pushValue n v s) fun _ s => pushValues n vs s := rfl

/-- `align_check` (42_fxstate.md R178). -/
theorem alignCheck_ok (a : Word) (s : State) (h : AlignOk s a) : alignCheck a s = .going () s := by
  unfold alignCheck
  rcases h with h | h <;> simp [h]

theorem alignCheck_fault (a : Word) (s : State) (h : ¬ AlignOk s a) : alignCheck a s = .raised (.gp 0) s := by
  simp only [AlignOk, not_or, Bool.not_eq_false] at h
  simp [alignCheck, h.1, h.2]

end Sys2Proof.Machine
end

