-- ==== Sys2Proof/Laws/PerInstr.lean ====
section
/-! SUPPORT. The families of statements about every command as syntax, one lemma per constructor. -/

namespace Sys2Proof.Laws.EncodedWord

/-- The word of a command keeps the format of spec/30_encoding.md R81: RSV is 0, and CC is 0 in every command but EVAL_CC. -/
def Statement (i : Instr) : Prop :=
  rsvField (encode i).word = 0 ∧ (opcField (encode i).word = 0x20 ∨ ccField (encode i).word = 0)

/-- The statement of a command whose word does not depend on its operands. -/
theorem of_word {i : Instr} (w : Word) (hw : (encode i).word = w)
    (h : rsvField w = 0 ∧ (opcField w = 0x20 ∨ ccField w = 0)) : Statement i := by
  subst hw; exact h

theorem getcf : Statement .getcf := ⟨rfl, .inr rfl⟩
theorem getpf : Statement .getpf := ⟨rfl, .inr rfl⟩
theorem getaf : Statement .getaf := ⟨rfl, .inr rfl⟩
theorem getzf : Statement .getzf := ⟨rfl, .inr rfl⟩
theorem getsf : Statement .getsf := ⟨rfl, .inr rfl⟩
theorem getof : Statement .getof := ⟨rfl, .inr rfl⟩
theorem testO : Statement .testO := ⟨rfl, .inr rfl⟩
theorem testB : Statement .testB := ⟨rfl, .inr rfl⟩
theorem testZ : Statement .testZ := ⟨rfl, .inr rfl⟩
theorem testS : Statement .testS := ⟨rfl, .inr rfl⟩
theorem testP : Statement .testP := ⟨rfl, .inr rfl⟩
theorem testBe : Statement .testBe := ⟨rfl, .inr rfl⟩
theorem testL : Statement .testL := ⟨rfl, .inr rfl⟩
theorem testLe : Statement .testLe := ⟨rfl, .inr rfl⟩
theorem evalcc : ∀ cc, Statement (.evalcc cc) := by unfold Statement; decide
theorem snap (op1 op2 result addResult opSize dirtyMask : Word) :
    Statement (.snap op1 op2 result addResult opSize dirtyMask) := of_word 0x28 rfl (by decide)
theorem setflags (value mask : Word) : Statement (.setflags value mask) := of_word 0x29 rfl (by decide)
theorem stackEa (offset : Word) : Statement (.stackEa offset) := of_word 0x30 rfl (by decide)
theorem stackAdjust (amount : Word) : Statement (.stackAdjust amount) := of_word 0x31 rfl (by decide)
theorem push16 (value : Half) : Statement (.push16 value) := of_word 0x32 rfl (by decide)
theorem push32 (value : Word) : Statement (.push32 value) := of_word 0x33 rfl (by decide)
theorem pop16 : Statement .pop16 := ⟨rfl, .inr rfl⟩
theorem pop32 : Statement .pop32 := ⟨rfl, .inr rfl⟩
theorem pusha16 : Statement .pusha16 := ⟨rfl, .inr rfl⟩
theorem pusha32 : Statement .pusha32 := ⟨rfl, .inr rfl⟩
theorem fxsave (addr : Word) : Statement (.fxsave addr) := of_word 0x40 rfl (by decide)
theorem fxrstor (addr : Word) : Statement (.fxrstor addr) := of_word 0x41 rfl (by decide)

end Sys2Proof.Laws.EncodedWord
end

