-- ==== Sys2Proof/Laws/Step.lean ====
section
/-! SUPPORT. What one step can do, what an act of the environment writes, and the memory of the reset state. -/

namespace Sys2Proof.Machine

/-- Everything a step that goes on can have done: nothing, an act of the environment, or one command. -/
theorem step_next_cases {s t : State} (h : step s = .next t) :
    (s.inputs = [] ∧ t = s) ∨
    (∃ e rest, s.inputs = .environment e :: rest ∧ t = environmentAct e { s with inputs := rest }) ∨
    (∃ c i rest, s.inputs = .command c :: rest ∧ decode c = .ok i ∧ exec i { s with inputs := rest } = .next t) := by
  unfold step at h
  split at h
  · next hi => exact .inl ⟨hi, by simpa using h.symm⟩
  · next e rest hi => exact .inr (.inl ⟨e, rest, hi, by simpa using h.symm⟩)
  · next c rest hi =>
    split at h
    · cases h
    · next i hd => exact .inr (.inr ⟨c, i, rest, hi, hd, h⟩)

/-- A command at the head of the queue is the next thing performed, and it is the table word's (log 11). -/
@[simp] theorem withFetchWord_inputs (s : State) (nbits w : Nat) :
    (s.withFetchWord nbits w).inputs = .command (tableCommand nbits w) :: s.inputs := rfl

/-- An act of the environment never writes the parameters, the response or the record of bus calls. -/
theorem environmentAct_outputs (e : EnvironmentAct) (s : State) :
    (environmentAct e s).params = s.params ∧ (environmentAct e s).response = s.response ∧
    (environmentAct e s).bus = s.bus ∧ (environmentAct e s).inputs = s.inputs := by
  cases e <;> exact ⟨rfl, rfl, rfl, rfl⟩

/-- An act of the environment keeps memory canonical. -/
theorem environmentAct_wf (e : EnvironmentAct) (s : State) (h : s.mem.wf = true) : (environmentAct e s).mem.wf = true := by
  cases e with
  | writeByte a v => exact memSet_wf _ _ _ a.isLt h
  | writeGpr | writeOtherFlags | setStackSize32 | setSsBase | writeFx | setPermissions | reset => exact h

/-- Memory is canonical after reset. -/
theorem reset_memory_wf : State.reset.mem.wf = true := rfl

end Sys2Proof.Machine
end

