-- ==== Sys2Proof/Tests/Slice0.lean ====
section
/-! SUPPORT. Tests with expected results from the tables of spec/95_test_vectors.md, and a witness for the hypotheses of every statement. -/

namespace Sys2Proof.Tests

open Sys2Proof.Machine

/-! ### Reading an answer -/

/-- The state of an answer that goes on. -/
def stateOf : Answer → Option State
  | .next t => some t
  | .fault _ => none
  | .refused _ => none

/-- The response of an answer that goes on, the drawn address of a memory fault left out. -/
def respOf (a : Answer) : Option Response :=
  (stateOf a).map fun t => match t.response with
    | .fault (.memFault _ acc) => .fault (.memFault 0 acc)
    | r => r

/-- The reason of a refusal. -/
def reasonOf : Answer → Option Refusal
  | .next _ => none
  | .fault _ => none
  | .refused r => some r

/-- The command that a decoder's answer names. -/
def accepted : Except Undefined Instr → Option Instr
  | .ok i => some i
  | .error _ => none

/-- The bytes of memory after an answer. -/
def bytesAfter (a : Answer) (at' : Word) (n : Nat) : Option (List Byte) := (stateOf a).map fun t => loadBytes t.mem at' n

/-- ESP after an answer. -/
def espAfter (a : Answer) : Option Word := (stateOf a).map fun t => t.gpr[4]

/-- The flag state after an answer. -/
def flAfter (a : Answer) : Option FlagState := (stateOf a).map State.fl

/-- The FPU and SSE state after an answer. -/
def fxAfter (a : Answer) : Option FxState := (stateOf a).map State.fx

/-! ### Small states -/

/-- A state whose snapshot, dirty mask and stored flags are given. -/
def withFlags (op1 op2 result addResult : Word) (n : OpSize) (dirty flags : Word) : State :=
  { State.reset with
    fl := { flags := flags, flagsChanged := dirty, lastOp1 := op1, lastOp2 := op2, lastResult := result,
            lastAddResult := addResult, lastOpSize := n } }

/-- A state whose stack mode, stack base and ESP are given. -/
def withStack (mode32 : Bool) (base esp : Word) : State :=
  { State.reset with stackSize32 := mode32, ssBase := base, gpr := (Vector.replicate 8 0).set 4 esp }

/-- A state in which one command is issued. -/
def issuing (w : Word) (p : Ports) : State := { State.reset with inputs := [.command ⟨w, p⟩] }

/-- Ports with a value on each, no two the same. -/
def somePorts : Ports := { a := 0xA1A2A3A4, b := 0xB, c := 0xC, d := 0xD, e := 31, f := 0xF }

/-- Vector F1: add8 0xFF + 0x01. -/
def stateF1 : State := withFlags 0xFF 1 0x100 0x100 .byte 0x8D5 0
/-- Vector F9: sub8 0x03 - 0x05. -/
def stateF9 : State := withFlags 0xFFFFFFFE 5 0xFFFFFFFE 3 .byte 0x8D5 0
/-- Vector F17: sub32 0 - 0x80000000. -/
def stateF17 : State := withFlags 0x80000000 0x80000000 0x80000000 0 .word 0x8D5 0
/-- Vector F21: PF, ZF and SF dirty, CF and OF stored 1. -/
def stateF21 : State := withFlags 0 0 0x80 0 .byte 0x0C4 0x801

/-- The registers of vector K15. -/
def stateK15 : State :=
  { withStack false 0x10000 0 with
    gpr := #v[0x11110001, 0x22220002, 0x33330003, 0x44440004, 0xABCD0100, 0x55550005, 0x66660006, 0x77770007] }

/-- Vector K20 and K21: 32-bit mode, ESP 0x2000, one byte not writable. -/
def stateDenied (x : Word) : State := { withStack true 0 0x2000 with unwritable := [⟨x, x⟩] }

/-- Vector K23: the second push of the wrapped PUSHA16 is the last that may write. -/
def stateK23 : State :=
  { withStack false 0 8 with
    gpr := #v[0xAAAA, 0xCCCC, 0, 0, 8, 0, 0, 0]
    unwritable := [⟨0, 3⟩, ⟨8, 0xFFF7⟩, ⟨0x10008, 0xFFFFFFFF⟩] }

/-- Vector K22: the first push of the wrapped PUSHA16 may not write. -/
def stateK22 : State := { withStack false 0 8 with unwritable := [⟨0, 0xFFF7⟩, ⟨0x10008, 0xFFFFFFFF⟩] }

/-- The FPU and SSE part of the reference state of 95_test_vectors.md section 3.5. -/
def sigmaFx : FxState :=
  { fcw := 0x037F, fswRest := 0x4100, stackPtr := 5, stackEmpty := 0xF0, fpuOpcode := 0x01D9, fpuIp := 0x00401234,
    fpuIpSelector := 0x001B, fpuDp := 0x00500010, fpuDpSelector := 0x0023, mxcsr := 0x00001F80
    stPhys := #v[0x3FFF8000000000000000, 0x40008000000000000000, 0x40018000000000000000, 0x40028000000000000000,
      0x40038000000000000000, 0x40048000000000000000, 0x40058000000000000000, 0x40068000000000000000]
    xmm := #v[0x0F0E0D0C0B0A09080706050403020100, 0x1F1E1D1C1B1A19181716151413121110,
      0x2F2E2D2C2B2A29282726252423222120, 0x3F3E3D3C3B3A39383736353433323130,
      0x4F4E4D4C4B4A49484746454443424140, 0x5F5E5D5C5B5A59585756555453525150,
      0x6F6E6D6C6B6A69686766656463626160, 0x7F7E7D7C7B7A79787776757473727170] }

/-- The reference state, with EE in the first bytes of 0x1000 to 0x11FF that FXSAVE leaves alone. -/
def sigma : State := { State.reset with fx := sigmaFx, mem := [(0x1005, 0xEE), (0x100E, 0xEE), (0x100F, 0xEE), (0x1016, 0xEE)] }

/-- The bytes of an image that vectors X4 to X7 differ in, in front of the sign and exponent fields of slots 0 and 1 of X1. -/
def stateImage (bytes : Memory) : State :=
  { State.reset with mem := bytes ++ [(0x1028, 0x04), (0x1029, 0x40), (0x1038, 0x05), (0x1039, 0x40)] }

/-! ### Operands and command words -/

/-- WellFormed refuses an operand size that R85 does not allow; the neighbouring legal sizes pass. -/
theorem test_wf_refuses_bad_op_size :
    (Instr.snap 1 1 2 2 8 0x8D5).wf = false ∧ (Instr.snap 1 1 2 2 0 0x8D5).wf = false ∧
    (Instr.snap 1 1 2 2 7 0x8D5).wf = true ∧ (Instr.snap 1 1 2 2 31 0x8D5).wf = true := by decide

/-- The words of the flag reads (R83). -/
theorem test_decode_flag_reads :
    [0x10, 0x11, 0x12, 0x13, 0x14, 0x15, 0x18, 0x19, 0x1A, 0x1B, 0x1C, 0x1D, 0x1E, 0x1F].map (decodeTableWord 32) =
      [Instr.getcf, .getpf, .getaf, .getzf, .getsf, .getof,
        .testO, .testB, .testZ, .testS, .testP, .testBe, .testL, .testLe].map some := by decide

/-- The words of the other commands, with the ports that carry their operands (R82, R83, R85). -/
theorem test_decode_operands :
    [0x28, 0x29, 0x30, 0x31, 0x32, 0x33, 0x34, 0x35, 0x36, 0x37, 0x40, 0x41].map (fun w => accepted (decode ⟨w, somePorts⟩)) =
      [Instr.snap 0xA1A2A3A4 0xB 0xC 0xD 31 0xF, .setflags 0xA1A2A3A4 0xB, .stackEa 0xA1A2A3A4, .stackAdjust 0xA1A2A3A4,
        .push16 0xA3A4, .push32 0xA1A2A3A4, .pop16, .pop32, .pusha16, .pusha32,
        .fxsave 0xA1A2A3A4, .fxrstor 0xA1A2A3A4].map some := by decide

/-- One word of each family, bit by bit from R81, R83 and R84. -/
theorem test_decode_bit_by_bit :
    accepted (decode ⟨0b00000000000000000000000000010101, somePorts⟩) = some .getof ∧
    accepted (decode ⟨0b00000000000000000000000000011110, somePorts⟩) = some .testL ∧
    accepted (decode ⟨0b00000000000000000000010100100000, somePorts⟩) = some (.evalcc 5) ∧
    accepted (decode ⟨0b00000000000000000000000000101001, somePorts⟩) = some (.setflags 0xA1A2A3A4 0xB) ∧
    accepted (decode ⟨0b00000000000000000000000000110110, somePorts⟩) = some .pusha16 ∧
    accepted (decode ⟨0b00000000000000000000000001000001, somePorts⟩) = some (.fxrstor 0xA1A2A3A4) := by decide

/-- The refused words of section 3.1 (W5 to W9, W11), and a table word longer than 32 bits. -/
theorem test_refused_words :
    [0x110, 0x1010, 0x21, 0xFF, 0x16, 0x80000036].map (decodeTableWord 32) = List.replicate 6 none ∧
    decodeTableWord 40 0x0100000010 = none := by decide

/-- The first step after reset performs the placed table word. -/
theorem test_first_step : respOf (step (State.reset.withFetchWord 32 0x520)) = some (.ok 1) := by decide

/-- A refused word ends in `undefined_command` (W5). -/
theorem test_step_refuses : reasonOf (step (issuing 0x110 somePorts)) = some .undefinedCommand := by decide

/-- The expansion of a negated predicate and of `materialize` in program P1 (R88). -/
theorem test_pseudo : (encode (.testNot .z)).word = 0x520 ∧
    (materialize (withFlags 0xFF 1 0x100 0x100 .byte 0x8D5 2)).getLast? = some (.setflags 0x55 0x8D5) := by decide

/-! ### Flag reads -/

/-- The answers of the getters on a state. -/
def getters (s : State) : List (Option Response) :=
  [Instr.getcf, .getpf, .getaf, .getzf, .getsf, .getof].map fun i => respOf (exec i s)

/-- The answers of the predicates on a state. -/
def predicates (s : State) : List (Option Response) :=
  [Instr.testO, .testB, .testZ, .testS, .testP, .testBe, .testL, .testLe].map fun i => respOf (exec i s)

/-- The answers of the sixteen conditions on a state. -/
def conditions (s : State) : List (Option Response) :=
  (List.range 16).map fun n => respOf (exec (.evalcc (BitVec.ofNat 4 n)) s)

/-- Expected results of a row of section 3.2. -/
def answered (ys : List Word) : List (Option Response) := ys.map fun y => some (.ok y)

theorem test_getters_F1 : getters stateF1 = answered [1, 4, 0x10, 1, 0, 0] := by decide
theorem test_getters_F21 : getters stateF21 = answered [1, 0, 0, 0, 1, 0x800] := by decide
theorem test_predicates_F9 : predicates stateF9 = answered [0, 1, 0, 1, 0, 1, 1, 1] := by decide
theorem test_predicates_F17 : predicates stateF17 = answered [1, 1, 0, 1, 1, 1, 0, 0] := by decide
theorem test_conditions_F1 : conditions stateF1 = answered [0, 1, 1, 0, 1, 0, 1, 0, 0, 1, 1, 0, 0, 1, 1, 0] := by decide
theorem test_conditions_F9 : conditions stateF9 = answered [0, 1, 1, 0, 0, 1, 1, 0, 1, 0, 0, 1, 1, 0, 1, 0] := by decide

/-! ### The write ports -/

/-- G1: folding CF keeps the other five flags computed. -/
theorem test_setflags_G1 : flAfter (exec (.setflags 1 1) stateF1) =
    some { flags := 1, flagsChanged := 0x8D4, lastOp1 := 0xFF, lastOp2 := 1, lastResult := 0x100, lastAddResult := 0x100,
           lastOpSize := .byte } := by decide

/-- G3: bits outside STATUS_MASK stay. -/
theorem test_setflags_G3 :
    (flAfter (exec (.setflags 0xFFFFFFFF 0xFFFFFFFF) (withFlags 0 0 0 0 .byte 0x8D5 0x202))).map
      (fun f => (f.flags, f.flagsChanged)) = some (0xAD7, 0) := by decide

/-- G4: operand size 8 is refused. -/
theorem test_snap_G4 : reasonOf (exec (.snap 1 1 2 2 8 0x8D5) State.reset) = some .badOpSize := by decide

/-- G5: the dirty mask is cut to STATUS_MASK. -/
theorem test_snap_G5 : flAfter (exec (.snap 0xFF 1 0x100 0x100 7 0xFFFFFFFF) State.reset) =
    some { flags := 2, flagsChanged := 0x8D5, lastOp1 := 0xFF, lastOp2 := 1, lastResult := 0x100, lastAddResult := 0x100,
           lastOpSize := .byte } := by decide

/-! ### The stack unit -/

theorem test_stack_ea_K2 : respOf (exec (.stackEa 8) (withStack true 0x20 0xFFFFFFF0)) = some (.ok 0x18) := by decide
theorem test_stack_ea_K4 : respOf (exec (.stackEa 0x7FFF0003) (withStack false 0x500 0x12340005)) = some (.ok 0x508) := by decide
theorem test_stack_adjust_K5b : espAfter (exec (.stackAdjust 1) (withStack true 0 0xFFFFFFFF)) = some 0 := by decide
theorem test_stack_adjust_K5d : espAfter (exec (.stackAdjust 0x18000) (withStack false 0 0xABCD8000)) = some 0xABCD0000 := by decide

/-- K7: no wrap within the access. -/
theorem test_push16_K7 : let a := exec (.push16 0xA1B2) (withStack false 0x30000 0x12340001)
    bytesAfter a 0x3FFFF 2 = some [0xB2, 0xA1] ∧ espAfter a = some 0x1234FFFF := by decide

/-- K10: the address wraps modulo 2^32. -/
theorem test_push32_K10 : let a := exec (.push32 0xDEADBEEF) (withStack true 0x100 2)
    bytesAfter a 0xFE 4 = some [0xEF, 0xBE, 0xAD, 0xDE] ∧ espAfter a = some 0xFFFFFFFE := by decide

/-- K20: a write fault changes nothing. -/
theorem test_push32_K20 : let a := exec (.push32 5) (stateDenied 0x1FFF)
    respOf a = some (.fault (.memFault 0 .write)) ∧ espAfter a = some 0x2000 ∧ (stateOf a).map State.mem = some [] := by decide

/-- K14: a pop across 0xFFFF. -/
theorem test_pop16_K14 :
    let a := exec .pop16 { withStack false 0 0xFFFF with mem := [(0xFFFF, 0x78), (0x10000, 0x56)] }
    respOf a = some (.ok 0x5678) ∧ espAfter a = some 1 := by decide

/-- K24: a read fault changes nothing. -/
theorem test_pop16_K24 : let a := exec .pop16 { withStack false 0 0 with unreadable := [⟨0, 0⟩] }
    respOf a = some (.fault (.memFault 0 .read)) ∧ espAfter a = some 0 := by decide

/-- K8, the pop: in 16-bit mode bits 31:16 of ESP stay. -/
theorem test_pop32_K8 :
    let a := exec .pop32 { withStack false 0 0xFFFFFFFE with
      mem := [(0xFFFE, 0x44), (0xFFFF, 0x33), (0x10000, 0x22), (0x10001, 0x11)] }
    respOf a = some (.ok 0x11223344) ∧ espAfter a = some 0xFFFF0002 := by decide

/-- K15, and the memory at the end of program P4. -/
theorem test_pusha16_K15 : let a := exec .pusha16 stateK15
    bytesAfter a 0x100F0 16 = some [7, 0, 6, 0, 5, 0, 0, 1, 4, 0, 3, 0, 2, 0, 1, 0] ∧ espAfter a = some 0xABCD00F0 := by decide

/-- K23: the partial state of the wrapped PUSHA16. -/
theorem test_pusha16_K23 : let a := exec .pusha16 stateK23
    respOf a = some (.fault (.memFault 0 .write)) ∧ espAfter a = some 4 ∧
    (stateOf a).map State.mem = some [(4, 0xCC), (5, 0xCC), (6, 0xAA), (7, 0xAA)] := by decide

/-- K18: the fifth write holds the full ESP. -/
theorem test_pusha32_K18 : let a := exec .pusha32 (withStack false 0 0xABCD0040)
    bytesAfter a 0x2C 4 = some [0x40, 0x00, 0xCD, 0xAB] ∧ espAfter a = some 0xABCD0020 := by decide

/-- K21: the check of PUSHA32 fails before any push. -/
theorem test_pusha32_K21 : let a := exec .pusha32 (stateDenied 0x1FE0)
    respOf a = some (.fault (.memFault 0 .write)) ∧ espAfter a = some 0x2000 ∧ (stateOf a).map State.mem = some [] := by decide

/-! ### The codec. The two memories after FXSAVE are evaluated by the kernel alone. -/

/-- X1: what is written, at which offset. -/
theorem test_fxsave_X1_fields : fxImage 0xFFBF sigmaFx =
    [(0, [0x7F, 0x03]), (2, [0x00, 0x69]), (4, [0x0F]), (6, [0xD9, 0x01]), (8, [0x34, 0x12, 0x40, 0x00]), (12, [0x1B, 0x00]),
      (16, [0x10, 0x00, 0x50, 0x00]), (20, [0x23, 0x00]), (24, [0x80, 0x1F, 0x00, 0x00]), (28, [0xBF, 0xFF, 0x00, 0x00])] ++
    [(0x20, 0x04, 0x40), (0x30, 0x05, 0x40), (0x40, 0x06, 0x40), (0x50, 0xFF, 0x3F), (0x60, 0x00, 0x40), (0x70, 0x01, 0x40),
      (0x80, 0x02, 0x40), (0x90, 0x03, 0x40)].flatMap (fun (e : Nat × Byte × Byte) =>
        [(e.1, [0, 0, 0, 0, 0, 0, 0, 0x80]), (e.1 + 8, [e.2.1, e.2.2])]) ++
    (List.range 8).map (fun k => (0xA0 + 16 * k, (List.range 16).map fun b => BitVec.ofNat 8 (16 * k + b))) := by decide

/-- X1: eight bytes of the first row of memory, the unlisted byte 0x1005 among them. -/
theorem test_fxsave_X1_memory : bytesAfter (exec (.fxsave 0x1000) sigma) 0x1003 8 = some
    [0x69, 0x0F, 0xEE, 0xD9, 0x01, 0x34, 0x12, 0x40] := by decide +kernel

/-- X12: the image wraps modulo 2^32, offset 0x100 at address 0. -/
theorem test_fxsave_X12 : bytesAfter (exec (.fxsave 0xFFFFFF00) sigma) 0 4 = some [0x60, 0x61, 0x62, 0x63] := by decide +kernel

/-- X4: the slots are placed by the restored `stack_ptr`. -/
theorem test_fxrstor_X4 : (fxAfter (exec (.fxrstor 0x1000) (stateImage [(0x1003, 0x51), (0x1018, 0x80), (0x1019, 0x1F)]))).map (fun (x : FxState) =>
      (x.stackPtr, x.fswRest, (x.stPhys[(2 : Fin 8)]).extractLsb' 64 16, (x.stPhys[(3 : Fin 8)]).extractLsb' 64 16)) =
      some (2, 0x4100, 0x4004, 0x4005) := by decide

/-- X5: a reserved MXCSR bit. -/
theorem test_fxrstor_X5 :
    (stateOf (exec (.fxrstor 0x1000) (stateImage [(0x1003, 0x69), (0x1018, 0x80), (0x1019, 0x1F), (0x101A, 1)]))).map (fun t => (t.response, t.fx)) =
      some (.fault (.gp 0), State.reset.fx) := by decide

/-! ### Witnesses of hypotheses: permissions -/

/-- With no range listed every byte may be written. -/
theorem allWritable_open (s : State) (a : Word) (n : Nat) (h : s.unwritable = []) : AllWritable s a n := by
  simp [AllWritable, byteWritable, h]

/-- With no range listed every byte may be read. -/
theorem allReadable_open (s : State) (a : Word) (n : Nat) (h : s.unreadable = []) : AllReadable s a n := by
  simp [AllReadable, byteReadable, h]

/-- One byte of a run that may not be written. -/
theorem not_allWritable (s : State) (a x : Word) (n k : Nat) (hk : k < n) (hx : x = a + BitVec.ofNat 32 k)
    (h : byteWritable s x = false) : ¬ AllWritable s a n := fun hall =>
  absurd (hall x ((mem_addrsFrom _ _ _).2 ⟨k, hk, hx⟩)) (by simp [h])

/-- One byte of a run that may not be read. -/
theorem not_allReadable (s : State) (a x : Word) (n k : Nat) (hk : k < n) (hx : x = a + BitVec.ofNat 32 k)
    (h : byteReadable s x = false) : ¬ AllReadable s a n := fun hall =>
  absurd (hall x ((mem_addrsFrom _ _ _).2 ⟨k, hk, hx⟩)) (by simp [h])

/-! ### Witnesses: command words and steps -/

/-- Accepted words beside ports with junk on everything that the command does not name. -/
theorem witness_AcceptedWordsAreTheEncodedWords :
    decode ⟨0xF20, somePorts⟩ = .ok (.evalcc 15) ∧ decode ⟨0x33, somePorts⟩ = .ok (.push32 0xA1A2A3A4) ∧
    decode ⟨0x32, somePorts⟩ = .ok (.push16 0xA3A4) ∧
    namedPorts (.push16 0xA3A4) somePorts = namedPorts (.push16 0xA3A4) (encode (.push16 0xA3A4)).ports ∧
    somePorts ≠ (encode (.push16 0xA3A4)).ports := ⟨rfl, rfl, rfl, by decide, by decide⟩

/-- A refused word for each clause of R86, and the legal neighbour that differs in that clause only. -/
theorem witness_UndefinedCommandsAreExactlyTheIllegalWords :
    (issuing 0x16 somePorts).inputs = .command ⟨0x16, somePorts⟩ :: [] ∧
    [(0x16 : Word), 0x1010, 0x110].map (fun w => reasonOf (step (issuing w somePorts))) = List.replicate 3 (some .undefinedCommand) ∧
    [(0x15 : Word), 0x10, 0x120].map (fun w => reasonOf (step (issuing w somePorts))) = List.replicate 3 none := by decide

theorem witness_StepPerformsTheIssuedCommand :
    (issuing 0x31 somePorts).inputs = .command ⟨0x31, somePorts⟩ :: [] ∧
    decode ⟨0x31, somePorts⟩ = .ok (.stackAdjust 0xA1A2A3A4) := ⟨rfl, rfl⟩

theorem witness_IdleBlockStaysTheSame : State.reset.inputs = [] := rfl

theorem witness_EnvironmentLeavesTheFlagEngine :
    ({ State.reset with inputs := [.environment (.writeOtherFlags 0xFFFFFFFF)] } : State).inputs =
      .environment (.writeOtherFlags 0xFFFFFFFF) :: [] ∧
    ∀ r, EnvironmentAct.writeOtherFlags 0xFFFFFFFF ≠ .reset r := ⟨rfl, fun _ => by simp⟩

/-! ### Witnesses: flags -/

/-- A clean and a dirty flag in one state, and a mask that differs in other flags only. -/
theorem witness_DirtyBitSelectsStoredOrComputed :
    stateF21.fl.flagsChanged &&& flagMask .cf = 0 ∧ stateF21.fl.flagsChanged &&& flagMask .zf ≠ 0 ∧
    (0x040 : Word) &&& flagMask .zf = stateF21.fl.flagsChanged &&& flagMask .zf := by decide

/-- Two states with the same flag state and another ESP. -/
theorem witness_FlagReadsArePure : isFlagRead (.evalcc 3) = true ∧
    (withStack true 0 1).fl = State.reset.fl ∧
    exec (.evalcc 3) (withStack true 0 1) = .next { withStack true 0 1 with response := .ok 1 } ∧
    exec (.evalcc 3) State.reset = .next { State.reset with response := .ok 1 } := ⟨rfl, rfl, rfl, rfl⟩

/-- An addition at the boundary of each operand size, carrying and not carrying. -/
theorem witness_addition (n : OpSize) (b : Word) (hb : b = 0 ∨ b = 1) :
    let f := (withFlags (BitVec.allOnes 32) b (BitVec.allOnes 32 + b) (BitVec.allOnes 32 + b) n 0x8D5 0).fl
    lowPart (opWidth n) f.lastAddResult = (lowPart (opWidth n) f.lastOp1 + lowPart (opWidth n) f.lastOp2) % 2 ^ opWidth n ∧
    lowPart 5 f.lastAddResult = (lowPart 5 f.lastOp1 + lowPart 5 f.lastOp2) % 2 ^ 5 := by
  rcases hb with rfl | rfl <;> cases n <;> decide

theorem witness_ComputedCarryIsTheCarryOut : let f := stateF1.fl
    lowPart 8 f.lastAddResult = (lowPart 8 f.lastOp1 + lowPart 8 f.lastOp2) % 2 ^ 8 ∧ opWidth f.lastOpSize = 8 ∧
    computedCF f = 1 := by decide

/-- Vector F2: a signed overflow. -/
theorem witness_ComputedOverflowIsSignedOverflow : let f := (withFlags 0x7F 1 0x80 0x80 .byte 0x8D5 0).fl
    lowPart 8 f.lastAddResult = (lowPart 8 f.lastOp1 + lowPart 8 f.lastOp2) % 2 ^ 8 ∧ opWidth f.lastOpSize = 8 ∧
    computedOF f = 1 := by decide

/-- Vector F26: AF alone. -/
theorem witness_ComputedAdjustIsTheNibbleCarry : let f := (withFlags 8 8 0x10 0x10 .byte 0x8D5 0).fl
    lowPart 5 f.lastAddResult = (lowPart 5 f.lastOp1 + lowPart 5 f.lastOp2) % 2 ^ 5 ∧ computedAF f = 0x10 := by decide

/-- Two snapshots that agree where R119 says and differ above. -/
theorem witness_ComputedFlagsAreWidthLocal :
    let f := (withFlags 0x10 0x90 0x17F 0x80 .byte 0x8D5 0).fl
    let g := (withFlags 0xFFFFFF10 0x190 0xFF7F 0x480 .byte 0x8D5 0).fl
    f.lastOpSize = g.lastOpSize ∧ f.lastOp1.getLsbD 7 = g.lastOp1.getLsbD 7 ∧ f.lastOp2.getLsbD 7 = g.lastOp2.getLsbD 7 ∧
    f.lastAddResult.getLsbD 7 = g.lastAddResult.getLsbD 7 ∧ f.lastResult.getLsbD 7 = g.lastResult.getLsbD 7 ∧
    lowPart 8 f.lastResult = lowPart 8 g.lastResult ∧
    f.lastOp1.getLsbD 4 = g.lastOp1.getLsbD 4 ∧ f.lastOp2.getLsbD 4 = g.lastOp2.getLsbD 4 ∧
    f.lastAddResult.getLsbD 4 = g.lastAddResult.getLsbD 4 := by decide

/-- The three legal operand sizes, for the compare, fold and snapshot statements. -/
theorem witness_CompareSnapshotGivesTheComparisons :
    opSizeOf 7 = some .byte ∧ opSizeOf 15 = some .half ∧ opSizeOf 31 = some .word := by decide

/-- A legal size, and refused sizes next to the legal ones. -/
theorem witness_SnapWriteLoadsTheSnapshotOrIsRefused :
    (31 : Word) = BitVec.ofNat 32 (opSizeBit .word) ∧
    ∀ e ∈ [(6 : Word), 8, 14, 16, 30, 32, 0x10007], e ≠ 7 ∧ e ≠ 15 ∧ e ≠ 31 := by simp [opSizeBit]

theorem witness_FoldBeforeSnapshotKeepsTheFlag :
    opSizeOf 7 = some .byte ∧ (0x8D4 : Word) &&& flagMask .cf = 0 := by decide

theorem witness_MaterializeKeepsEveryFlag : stateF1.fl.flagsChanged &&& ~~~statusMask = 0 := by decide

/-- A flag read while the dirty mask is 0. -/
theorem witness_CleanSnapshotIsUnobservable : isFlagRead .getcf = true ∧ State.reset.fl.flagsChanged = 0 := by decide

/-! ### Witnesses: the stack unit -/

theorem witness_Push16StoresThenCommits_writable : AllWritable (withStack false 0 1) (ea (withStack false 0 1) (-2)) 2 :=
  allWritable_open _ _ _ rfl

theorem witness_Push16StoresThenCommits_denied : ¬ AllWritable (stateDenied 0x1FFF) (ea (stateDenied 0x1FFF) (-2)) 2 :=
  not_allWritable _ _ 0x1FFF _ 1 (by decide) (by decide) (by decide)

theorem witness_Push32StoresThenCommits_writable : AllWritable (withStack true 0 2) (ea (withStack true 0 2) (-4)) 4 :=
  allWritable_open _ _ _ rfl

theorem witness_Push32StoresThenCommits_denied : ¬ AllWritable (stateDenied 0x1FFF) (ea (stateDenied 0x1FFF) (-4)) 4 :=
  not_allWritable _ _ 0x1FFF _ 3 (by decide) (by decide) (by decide)

/-- The address that both pops read in 16-bit mode at ESP 0xABCD0000. -/
theorem witness_PopsReadThenCommit_readable : let s := withStack false 0x30000 0xABCD0000
    AllReadable s 0x30000 2 ∧ AllReadable s 0x30000 4 ∧
    s.ssBase + (if s.stackSize32 then s.gpr[4] else (s.gpr[4].extractLsb' 0 16).setWidth 32) = 0x30000 :=
  ⟨allReadable_open _ _ _ rfl, allReadable_open _ _ _ rfl, by decide⟩

theorem witness_PopsReadThenCommit_denied : let s := { withStack true 0 0x2000 with unreadable := [⟨0x2001, 0x2001⟩] }
    ¬ AllReadable s 0x2000 2 ∧ ¬ AllReadable s 0x2000 4 ∧
    s.ssBase + (if s.stackSize32 then s.gpr[4] else (s.gpr[4].extractLsb' 0 16).setWidth 32) = 0x2000 :=
  ⟨not_allReadable _ _ 0x2001 _ 1 (by decide) (by decide) (by decide),
    not_allReadable _ _ 0x2001 _ 1 (by decide) (by decide) (by decide), by decide⟩

/-- All slots writable, in both modes and with a block that wraps. -/
theorem witness_PushaPushesTheEightRegisters_writable (s : State) (hs : s ∈ [withStack true 0 0x2000, withStack false 0 8]) :
    AllWritable s (ea s (-16)) 16 ∧ (∀ j : Nat, j < 8 → AllWritable s (pushaSlot s 2 j) 2) ∧
    AllWritable s (ea s (-32)) 32 ∧ (∀ j : Nat, j < 8 → AllWritable s (pushaSlot s 4 j) 4) := by
  have h : s.unwritable = [] := by
    simp only [List.mem_cons, List.not_mem_nil, or_false] at hs
    rcases hs with rfl | rfl <;> rfl
  exact ⟨allWritable_open _ _ _ h, fun _ _ => allWritable_open _ _ _ h, allWritable_open _ _ _ h, fun _ _ => allWritable_open _ _ _ h⟩

theorem witness_PushaPushesTheEightRegisters_check : ¬ AllWritable (stateDenied 0x1FF0) (ea (stateDenied 0x1FF0) (-16)) 16 ∧
    ¬ AllWritable (stateDenied 0x1FE0) (ea (stateDenied 0x1FE0) (-32)) 32 :=
  ⟨not_allWritable _ _ 0x1FF0 _ 0 (by decide) (by decide) (by decide),
    not_allWritable _ _ 0x1FE0 _ 0 (by decide) (by decide) (by decide)⟩

/-- A passed check and a first slot that fails (K22), and a third slot that fails (K23). -/
theorem witness_Pusha16PushesTheEightRegisters_late :
    (AllWritable stateK22 (ea stateK22 (-16)) 16 ∧ ¬ AllWritable stateK22 (pushaSlot stateK22 2 0) 2) ∧
    AllWritable stateK23 (ea stateK23 (-16)) 16 ∧ (∀ j : Nat, j < 2 → AllWritable stateK23 (pushaSlot stateK23 2 j) 2) ∧
    ¬ AllWritable stateK23 (pushaSlot stateK23 2 2) 2 :=
  ⟨⟨(badWrites_eq_nil _ _ _).1 (by decide), not_allWritable _ _ 6 _ 0 (by decide) (by decide) (by decide)⟩,
    (badWrites_eq_nil _ _ _).1 (by decide), fun j hj => (badWrites_eq_nil _ _ _).1 (by
      have h : ∀ j : Fin 2, badWrites stateK23 (pushaSlot stateK23 2 j.val) 2 = [] := by decide
      exact h ⟨j, hj⟩),
    not_allWritable _ _ 2 _ 0 (by decide) (by decide) (by decide)⟩

/-- A wrapped PUSHA32 whose first slot alone fails: the check covers 0xFFE4 to 0x10003, the first slot 0 to 3. -/
def stateWrap32 : State := { withStack false 0 4 with unwritable := [⟨0, 1⟩] }

/-- A passed check and a first slot of PUSHA32 that fails, at SP 4. -/
theorem witness_Pusha32PushesTheEightRegisters_late :
    AllWritable stateWrap32 (ea stateWrap32 (-32)) 32 ∧ ¬ AllWritable stateWrap32 (pushaSlot stateWrap32 4 0) 4 :=
  ⟨(badWrites_eq_nil _ _ _).1 (by decide), not_allWritable _ _ 0 _ 0 (by decide) (by decide) (by decide)⟩

/-- SP equal to the block size, the lowest pointer that does not wrap. -/
theorem witness_PushaCompletesWhenTheBlockDoesNotWrap :
    ¬ PushaWraps (withStack false 0 0xFFFF0010) 16 ∧ AllWritable (withStack false 0 0xFFFF0010) (ea (withStack false 0 0xFFFF0010) (-16)) 16 ∧
    ¬ PushaWraps (withStack true 0 8) 32 ∧ AllWritable (withStack true 0 8) (ea (withStack true 0 8) (-32)) 32 :=
  ⟨fun h => absurd h.2 (by decide), allWritable_open _ _ _ rfl, fun h => absurd h.1 (by decide), allWritable_open _ _ _ rfl⟩

theorem witness_PopUndoesPush : let s := withStack false 0x30000 0x12340001
    AllWritable s (ea s (-2)) 2 ∧ AllReadable s (ea s (-2)) 2 ∧ AllWritable s (ea s (-4)) 4 ∧ AllReadable s (ea s (-4)) 4 :=
  ⟨allWritable_open _ _ _ rfl, allReadable_open _ _ _ rfl, allWritable_open _ _ _ rfl, allReadable_open _ _ _ rfl⟩

theorem witness_StackCommandsTouchOnlyEspAndMemory : isStackCommand (.push32 5) = true ∧
    respOf (exec (.push32 5) (withStack true 0 0x2000)) = some (.ok 0) ∧ (0 : Fin 8) ≠ 4 := by decide

/-! ### Witnesses: the codec -/

/-- The alignment check enabled, on `sigma`. -/
def sigmaAligned : State := { sigma with params := { Params.recommended with fxAlignCheck := true } }

theorem witness_FxsaveStoresTheImage_ok : AlignOk sigmaAligned 0x1010 ∧ AllWritable sigmaAligned 0x1010 512 ∧
    unlistedOffset 5 = true ∧ unlistedOffset 511 = true ∧ unlistedOffset 159 = true ∧ unlistedOffset 160 = false :=
  ⟨.inr (by decide), allWritable_open _ _ _ rfl, by decide⟩

/-- Vector X9. -/
theorem witness_Codec_misaligned : ¬ AlignOk sigmaAligned 0x1008 := by
  rintro (h | h) <;> exact absurd h (by decide)

/-- Vectors X10 and X11: the last byte of the image is denied. -/
theorem witness_Codec_denied :
    AlignOk { sigma with unwritable := [⟨0x11FF, 0x11FF⟩], unreadable := [⟨0x11FF, 0x11FF⟩] } 0x1000 ∧
    ¬ AllWritable { sigma with unwritable := [⟨0x11FF, 0x11FF⟩], unreadable := [⟨0x11FF, 0x11FF⟩] } 0x1000 512 ∧
    ¬ AllReadable { sigma with unwritable := [⟨0x11FF, 0x11FF⟩], unreadable := [⟨0x11FF, 0x11FF⟩] } 0x1000 512 :=
  ⟨.inl rfl, not_allWritable _ _ 0x11FF _ 511 (by decide) (by decide) (by decide),
    not_allReadable _ _ 0x11FF _ 511 (by decide) (by decide) (by decide)⟩

/-- No reserved bit, with and without the quirk, and the reserved bits of X5 and X7. -/
theorem witness_FxrstorLoadsTheImage :
    AlignOk (stateImage []) 0x1000 ∧ AllReadable (stateImage []) 0x1000 512 ∧
    (stateImage []).params.fxrstorIpQuirk = false ∧
    ({ stateImage [] with params := { Params.recommended with fxrstorIpQuirk := true } } : State).params.fxrstorIpQuirk = true ∧
    fromBytes 32 (loadBytes (stateImage [(0x1018, 0x80), (0x1019, 0x1F)]).mem (0x1000 + BitVec.ofNat 32 24) 4) &&& ~~~(0xFFBF : Word) = 0 ∧
    fromBytes 32 (loadBytes (stateImage [(0x1018, 0x80), (0x1019, 0x1F), (0x101A, 1)]).mem (0x1000 + BitVec.ofNat 32 24) 4) &&& ~~~(0xFFBF : Word) ≠ 0 ∧
    fromBytes 32 (loadBytes (stateImage [(0x1018, 0xC0), (0x1019, 0x1F)]).mem (0x1000 + BitVec.ofNat 32 24) 4) &&& ~~~(0xFFBF : Word) ≠ 0 :=
  ⟨.inl rfl, allReadable_open _ _ _ rfl, rfl, rfl, by decide, by decide, by decide⟩

/-- Both commands end in a fault at a misaligned address. -/
theorem witness_CodecFaultsLeaveStateAndMemory :
    (takeFault (.gp 0) sigmaAligned).response = .fault (.gp 0) ∧
    exec (.fxrstor 0x1008) sigmaAligned = .next (takeFault (.gp 0) sigmaAligned) ∧
    exec (.fxsave 0x1008) sigmaAligned = .next (takeFault (.gp 0) sigmaAligned) := by
  exact ⟨rfl, rfl, rfl⟩

theorem witness_FxrstorUndoesFxsave : AlignOk sigma 0x1000 ∧ AllWritable sigma 0x1000 512 ∧ AllReadable sigma 0x1000 512 ∧
    sigma.fx.mxcsr &&& ~~~sigma.params.mxcsrMask = 0 ∧ sigma.fx.fswRest &&& ~~~fswRestMask = 0 :=
  ⟨.inl rfl, allWritable_open _ _ _ rfl, allReadable_open _ _ _ rfl, by decide, by decide⟩

theorem witness_CodecIgnoresFlagsRegistersAndStack :
    (∃ a, Instr.fxsave 0x1008 = .fxsave a ∨ Instr.fxsave 0x1008 = .fxrstor a) ∧
    exec (.fxsave 0x1008) sigmaAligned = .next (takeFault (.gp 0) sigmaAligned) :=
  ⟨⟨_, .inl rfl⟩, witness_CodecFaultsLeaveStateAndMemory.2.2⟩

/-! ### Witnesses: memory and the whole machine -/

/-- The widest and the narrowest access, at the top of the address space. -/
theorem witness_ReadsSeeTheWrittenBytesLittleEndian :
    (AllWritable State.reset 0xFFFFFFF8 16 ∧ AllReadable State.reset 0xFFFFFFF8 16) ∧
    AllWritable State.reset 0xFFFFFFFF 1 ∧ AllReadable State.reset 0xFFFFFFFF 1 :=
  ⟨⟨allWritable_open _ _ _ rfl, allReadable_open _ _ _ rfl⟩, allWritable_open _ _ _ rfl, allReadable_open _ _ _ rfl⟩

/-- A write fault, a read fault and a GP fault. -/
theorem witness_OnlyTheListedCausesFault :
    (∃ t x, exec (.push32 5) (stateDenied 0x1FFF) = .next t ∧ t.response = .fault (.memFault x .write)) ∧
    (∃ t x, exec .pop16 { withStack false 0 0 with unreadable := [⟨0, 0⟩] } = .next t ∧ t.response = .fault (.memFault x .read)) ∧
    (∃ t, exec (.fxsave 0x1008) sigmaAligned = .next t ∧ t.response = .fault (.gp 0)) :=
  ⟨⟨_, _, rfl, rfl⟩, ⟨_, _, rfl, rfl⟩, ⟨_, witness_CodecFaultsLeaveStateAndMemory.2.2, rfl⟩⟩

/-- A precise fault, and the wrapped PUSHA16 of K23. -/
theorem witness_FaultsArePreciseExceptWrappedPusha :
    (∃ t f, exec (.push32 5) (stateDenied 0x1FFF) = .next t ∧ t.response = .fault f) ∧
    (∃ t f, exec .pusha16 stateK23 = .next t ∧ t.response = .fault f) ∧ PushaWraps stateK23 16 :=
  ⟨⟨_, _, rfl, rfl⟩, ⟨_, _, rfl, rfl⟩, rfl, by decide⟩

/-- A push that faults, and the same push with the permission granted. -/
theorem witness_ReissueAfterFaultActsAsFirstIssue :
    ∃ t f u, exec (.push32 5) (stateDenied 0x1FFF) = .next t ∧ t.response = .fault f ∧
      ¬ ((Instr.push32 5 = .pusha16 ∧ PushaWraps (stateDenied 0x1FFF) 16) ∨
        (Instr.push32 5 = .pusha32 ∧ PushaWraps (stateDenied 0x1FFF) 32)) ∧
      exec (.push32 5) { stateDenied 0x1FFF with unreadable := [], unwritable := [] } = .next u ∧ u.response = .ok 0 :=
  ⟨_, _, _, rfl, rfl, by simp, rfl, rfl⟩

/-- Operands that keep the contract, and a refused command. -/
theorem witness_CommandsAnswerUnlessTheOperandSizeIsBad :
    (Instr.snap 1 1 2 2 15 0).wf = true ∧ exec (.snap 1 1 2 2 8 0) State.reset = .refused .badOpSize := ⟨rfl, rfl⟩

/-- A command that is neither write port, no push and no codec command answers a next state, for the statements about which command writes what. -/
theorem witness_OnlyTheWritersWrite :
    ∃ t, exec (.stackEa 4) (withStack true 0 0x2000) = .next t ∧ t.response = .ok 0x2004 ∧
      (∀ v m, Instr.stackEa 4 ≠ .setflags v m) ∧ (∀ a b c d e f, Instr.stackEa 4 ≠ .snap a b c d e f) ∧
      (∃ off, Instr.stackEa 4 = .stackEa off) ∧ (∀ a, Instr.stackEa 4 ≠ .fxrstor a) ∧
      (∀ v, Instr.stackEa 4 ≠ .push16 v) ∧ (∀ v, Instr.stackEa 4 ≠ .push32 v) ∧ Instr.stackEa 4 ≠ .pusha16 ∧
      Instr.stackEa 4 ≠ .pusha32 ∧ (∀ a, Instr.stackEa 4 ≠ .fxsave a) ∧ isStackCommand .getcf = false :=
  ⟨_, rfl, rfl, by simp, by simp, ⟨4, rfl⟩, by simp, by simp, by simp, by simp, by simp, by simp, rfl⟩

theorem reset_inv : Inv State.reset := ⟨rfl, by decide, by decide⟩

/-- A state that meets the invariant and steps, with a dirty flag and a listed byte. -/
theorem witness_EveryStepKeepsTheInvariant :
    Inv { issuing 0x11 somePorts with mem := [(3, 7)], fl := stateF1.fl } ∧
    ∃ t, step { issuing 0x11 somePorts with mem := [(3, 7)], fl := stateF1.fl } = .next t :=
  ⟨⟨by decide, by decide, by decide⟩, _, rfl⟩

end Sys2Proof.Tests
end

section
/-! What a step does with the input queue (00_scope.md R5). -/

namespace Sys2Proof.Machine

/-- Settles O5: the queue's head and the decoder's answer select the one branch of `step` that performs a command. -/
theorem stepPerformsTheIssuedCommand : Obligations.StepPerformsTheIssuedCommand := by
  intro s c rest i hhead hdecoded
  simp only [step, hhead, hdecoded]

end Sys2Proof.Machine
end

section
/-! What a command may write: a table with one entry per command, and the proof that every command stays inside its entry
(10_state.md R24, R26, R29, R31 to R33, R42; 20_memory.md R71). -/

namespace Sys2Proof.Machine

/-! ### The relation -/

/-- Which of the elements that some command writes a command may write. -/
structure Writes where
  /-- The flag state (R26 to R30). -/
  fl : Bool := false
  /-- ESP (R24). -/
  esp : Bool := false
  /-- Memory (R71). -/
  mem : Bool := false
  /-- The FPU and SSE state (R42). -/
  fx : Bool := false

/-- The step from `s` to `t` writes nothing beyond `w` and the model's records, and it keeps the invariant. -/
structure WritesOnly (w : Writes) (s t : State) : Prop where
  inputs : SameInputs s t
  otherRegs : ∀ j : Fin 8, j ≠ espIndex → t.gpr[j] = s.gpr[j]
  gpr : w.esp = false → t.gpr = s.gpr
  fl : w.fl = false → t.fl = s.fl
  mem : w.mem = false → t.mem = s.mem
  fx : w.fx = false → t.fx = s.fx
  inv : Inv s → Inv t

theorem SameInputs.refl (s : State) : SameInputs s s := ⟨rfl, rfl, rfl, rfl, rfl, rfl⟩

theorem SameInputs.trans {s t u : State} (h : SameInputs s t) (k : SameInputs t u) : SameInputs s u where
  stackSize32 := k.stackSize32.trans h.stackSize32
  ssBase := k.ssBase.trans h.ssBase
  unreadable := k.unreadable.trans h.unreadable
  unwritable := k.unwritable.trans h.unwritable
  params := k.params.trans h.params
  inputs := k.inputs.trans h.inputs

/-- The invariant sees memory, the dirty mask and the FPU state only. -/
theorem Inv.congr {s t : State} (h : Inv s) (hmem : t.mem = s.mem) (hfl : t.fl = s.fl) (hfx : t.fx = s.fx) : Inv t :=
  ⟨hmem ▸ h.memory, hfl ▸ h.dirtyMask, hfx ▸ h.statusRest⟩

namespace WritesOnly

variable {w : Writes} {s t u : State}

/-- The model's records (response, bus, draws) are outside every entry of the table. -/
theorem of_sameBlock (hb : SameBlock s t) (hi : SameInputs s t) (hm : t.mem = s.mem) : WritesOnly w s t where
  inputs := hi
  otherRegs _ _ := by rw [hb.gpr]
  gpr _ := hb.gpr
  fl _ := hb.fl
  mem _ := hm
  fx _ := hb.fx
  inv h := h.congr hm hb.fl hb.fx

theorem refl (s : State) : WritesOnly w s s := of_sameBlock ⟨rfl, rfl, rfl, rfl⟩ (.refl s) rfl

theorem trans (h : WritesOnly w s t) (k : WritesOnly w t u) : WritesOnly w s u where
  inputs := h.inputs.trans k.inputs
  otherRegs j hj := (k.otherRegs j hj).trans (h.otherRegs j hj)
  gpr hw := (k.gpr hw).trans (h.gpr hw)
  fl hw := (k.fl hw).trans (h.fl hw)
  mem hw := (k.mem hw).trans (h.mem hw)
  fx hw := (k.fx hw).trans (h.fx hw)
  inv hs := k.inv (h.inv hs)

/-! ### The updates of the state -/

theorem of_record (c : BusCall) (s : State) : WritesOnly w s (record c s) :=
  of_sameBlock ⟨rfl, rfl, rfl, rfl⟩ ⟨rfl, rfl, rfl, rfl, rfl, rfl⟩ rfl

theorem of_draw (s : State) : WritesOnly w s { s with draws := s.draws + 1 } :=
  of_sameBlock ⟨rfl, rfl, rfl, rfl⟩ ⟨rfl, rfl, rfl, rfl, rfl, rfl⟩ rfl

theorem of_driveResult (y : Word) (s : State) : WritesOnly w s (driveResult y s) :=
  of_sameBlock ⟨rfl, rfl, rfl, rfl⟩ ⟨rfl, rfl, rfl, rfl, rfl, rfl⟩ rfl

theorem of_takeFault (f : FaultSignal) (s : State) : WritesOnly w s (takeFault f s) :=
  of_sameBlock ⟨rfl, rfl, rfl, rfl⟩ ⟨rfl, rfl, rfl, rfl, rfl, rfl⟩ rfl

/-- Moving the stack pointer writes ESP (41_stack.md R142). -/
theorem of_adjust (hw : w.esp = true) (amt : Word) (s : State) : WritesOnly w s (adjust amt s) where
  inputs := ⟨by simp, by simp, by simp, by simp, by simp, by simp⟩
  otherRegs j hj := adjust_gpr_other s amt j hj
  gpr h := by simp [hw] at h
  fl _ := adjust_fl s amt
  mem _ := adjust_mem s amt
  fx _ := adjust_fx s amt
  inv h := h.congr (adjust_mem s amt) (adjust_fl s amt) (adjust_fx s amt)

/-- New contents of memory, kept canonical. -/
theorem of_setMem (hw : w.mem = true) {s : State} {m : Memory} (hm : s.mem.wf = true → m.wf = true) :
    WritesOnly w s { s with mem := m } where
  inputs := ⟨rfl, rfl, rfl, rfl, rfl, rfl⟩
  otherRegs _ _ := rfl
  gpr _ := rfl
  fl _ := rfl
  mem h := by simp [hw] at h
  fx _ := rfl
  inv h := ⟨hm h.memory, h.dirtyMask, h.statusRest⟩

/-- A new flag state with a dirty mask inside STATUS_MASK (R27). -/
theorem of_setFl (hw : w.fl = true) {s : State} {f : FlagState}
    (hf : s.fl.flagsChanged &&& ~~~statusMask = 0 → f.flagsChanged &&& ~~~statusMask = 0) :
    WritesOnly w s { s with fl := f } where
  inputs := ⟨rfl, rfl, rfl, rfl, rfl, rfl⟩
  otherRegs _ _ := rfl
  gpr _ := rfl
  fl h := by simp [hw] at h
  mem _ := rfl
  fx _ := rfl
  inv h := ⟨h.memory, hf h.dirtyMask, h.statusRest⟩

/-- A new FPU and SSE state without TOP bits in `fsw_rest` (R35). -/
theorem of_setFx (hw : w.fx = true) {s : State} {x : FxState} (hx : x.fswRest &&& ~~~fswRestMask = 0) :
    WritesOnly w s { s with fx := x } where
  inputs := ⟨rfl, rfl, rfl, rfl, rfl, rfl⟩
  otherRegs _ _ := rfl
  gpr _ := rfl
  fl _ := rfl
  mem _ := rfl
  fx h := by simp [hw] at h
  inv h := ⟨h.memory, h.dirtyMask, hx⟩

end WritesOnly

/-! ### Parts of commands -/

/-- The state that a part of a command leaves, whether it went on or raised (00_scope.md R12). -/
def Progress.state {α : Type} : Progress α → State
  | .going _ s => s
  | .raised _ s => s

section Parts

variable {w : Writes}

theorem andThen_writesOnly {α β : Type} {s : State} {p : Progress α} {k : α → State → Progress β}
    (hp : WritesOnly w s p.state) (hk : ∀ v t, WritesOnly w t (k v t).state) : WritesOnly w s (andThen p k).state := by
  cases p with
  | going v t => exact hp.trans (hk v t)
  | raised f t => exact hp

theorem finish_writesOnly {s t : State} {p : Progress Word} (hp : WritesOnly w s p.state) (h : finish p = .next t) :
    WritesOnly w s t := by
  cases p with
  | going y u =>
    cases h
    exact hp.trans (.of_driveResult y u)
  | raised f u =>
    cases h
    exact hp.trans (.of_takeFault f u)

theorem finishNoResult_writesOnly {s t : State} {p : Progress Unit} (hp : WritesOnly w s p.state)
    (h : finishNoResult p = .next t) : WritesOnly w s t :=
  finish_writesOnly (andThen_writesOnly hp fun _ t => .refl t) h

/-- A failed permission uses up a draw and nothing else (20_memory.md R64). -/
theorem faultUnlessAll_writesOnly (bad : List Word) (acc : Access) (s : State) :
    WritesOnly w s (faultUnlessAll bad acc s).state := by
  cases bad with
  | nil => exact .refl s
  | cons x bad => exact .of_draw s

/-- The common start of every primitive: the call is recorded, then its permission is tested (R64, R65). -/
theorem permission_writesOnly (c : BusCall) (bad : List Word) (acc : Access) (s : State) :
    WritesOnly w s (faultUnlessAll bad acc (record c s)).state :=
  (WritesOnly.of_record c s).trans (faultUnlessAll_writesOnly bad acc _)

theorem checkWritable_writesOnly (a : Word) (n : Nat) (s : State) : WritesOnly w s (checkWritable a n s).state :=
  permission_writesOnly _ _ _ s

theorem checkReadable_writesOnly (a : Word) (n : Nat) (s : State) : WritesOnly w s (checkReadable a n s).state :=
  permission_writesOnly _ _ _ s

theorem alignCheck_writesOnly (a : Word) (s : State) : WritesOnly w s (alignCheck a s).state := by
  by_cases h : AlignOk s a
  · rw [alignCheck_ok a s h]
    exact .refl s
  · rw [alignCheck_fault a s h]
    exact .refl s

theorem readBytes_writesOnly (a : Word) (n : Nat) (s : State) : WritesOnly w s (readBytes a n s).state :=
  andThen_writesOnly (permission_writesOnly _ _ _ s) fun _ t => .refl t

theorem memRead_writesOnly (b : Nat) (a : Word) (s : State) : WritesOnly w s (memRead b a s).state :=
  andThen_writesOnly (readBytes_writesOnly a (b / 8) s) fun _ t => .refl t

theorem readFields_writesOnly (a : Word) (fields : List (Nat × Nat)) (s : State) :
    WritesOnly w s (readFields a fields s).state := by
  induction fields generalizing s with
  | nil => exact .refl s
  | cons field rest ih =>
    exact andThen_writesOnly (readBytes_writesOnly _ field.2 s) fun _ t =>
      andThen_writesOnly (ih t) fun _ u => .refl u

/-- A write whose permission holds stores its bytes (R65). -/
theorem writeBytes_writesOnly (hw : w.mem = true) (a : Word) (bs : List Byte) (s : State) :
    WritesOnly w s (writeBytes a bs s).state :=
  andThen_writesOnly (permission_writesOnly _ _ _ s) fun _ t => .of_setMem hw (storeBytes_wf bs t.mem a)

theorem writeFields_writesOnly (hw : w.mem = true) (a : Word) (fields : List (Nat × List Byte)) (s : State) :
    WritesOnly w s (writeFields a fields s).state := by
  induction fields generalizing s with
  | nil => exact .refl s
  | cons field rest ih => exact andThen_writesOnly (writeBytes_writesOnly hw _ field.2 s) fun _ t => ih t

theorem pushValue_writesOnly {b : Nat} (hesp : w.esp = true) (hmem : w.mem = true) (n : Nat) (v : BitVec b) (s : State) :
    WritesOnly w s (pushValue n v s).state :=
  andThen_writesOnly (writeBytes_writesOnly hmem _ _ s) fun _ t => .of_adjust hesp _ t

theorem pushValues_writesOnly {b : Nat} (hesp : w.esp = true) (hmem : w.mem = true) (n : Nat) (vs : List (BitVec b))
    (s : State) : WritesOnly w s (pushValues n vs s).state := by
  induction vs generalizing s with
  | nil => exact .refl s
  | cons v vs ih => exact andThen_writesOnly (pushValue_writesOnly hesp hmem n v s) fun _ t => ih t

theorem popValue_writesOnly (hesp : w.esp = true) (b : Nat) (s : State) : WritesOnly w s (popValue b s).state :=
  andThen_writesOnly (memRead_writesOnly b _ s) fun _ t => .of_adjust hesp _ t

end Parts

/-! ### The commands -/

/-- A masked word has no bit outside the mask. -/
theorem and_and_not_self {n : Nat} (v mask : BitVec n) : v &&& mask &&& ~~~mask = 0 := by
  rw [BitVec.and_assoc, BitVec.and_not_self]
  exact BitVec.and_zero

/-- SNAP_WRITE masks the dirty mask (40_flags.md R117). -/
theorem loadSnapshot_dirtyMask (op1 op2 result addResult : Word) (n : OpSize) (dirty : Word) (f : FlagState) :
    (loadSnapshot op1 op2 result addResult n dirty f).flagsChanged &&& ~~~statusMask = 0 :=
  and_and_not_self dirty statusMask

/-- FLAGS_WRITE only clears bits of the dirty mask (R118). -/
theorem storeFlags_dirtyMask (value mask : Word) (f : FlagState) (h : f.flagsChanged &&& ~~~statusMask = 0) :
    (storeFlags value mask f).flagsChanged &&& ~~~statusMask = 0 := by
  simp only [storeFlags]
  rw [BitVec.and_assoc, BitVec.and_comm (~~~(mask &&& statusMask)), ← BitVec.and_assoc, h]
  exact BitVec.zero_and

/-- FXRSTOR restores a status word split from its TOP field (42_fxstate.md R175, 10_state.md R35). -/
theorem fxRestored_statusRest (quirk : Bool) (newMxcsr : Word) (img : List (Nat × List Byte)) (old : FxState) :
    (fxRestored quirk newMxcsr img old).fswRest &&& ~~~fswRestMask = 0 :=
  and_and_not_self _ fswRestMask

/-- The table: what each command may write (10_state.md R24, R31, R42; 20_memory.md R71). -/
def writesOf : Instr → Writes
  | .snap _ _ _ _ _ _ | .setflags _ _ => { fl := true }
  | .stackAdjust _ | .pop16 | .pop32 => { esp := true }
  | .push16 _ | .push32 _ | .pusha16 | .pusha32 => { esp := true, mem := true }
  | .fxsave _ => { mem := true }
  | .fxrstor _ => { fx := true }
  | .getcf | .getpf | .getaf | .getzf | .getsf | .getof => {}
  | .testO | .testB | .testZ | .testS | .testP | .testBe | .testL | .testLe => {}
  | .evalcc _ | .stackEa _ => {}

/-- SNAP_WRITE that is not refused loads the snapshot with a legal operand size and drives 0 (40_flags.md R117). -/
theorem execSnap_next {a b c d e f : Word} {s t : State} (h : execSnap a b c d e f s = .next t) :
    ∃ n, t = driveResult 0 { s with fl := loadSnapshot a b c d n f s.fl } := by
  unfold execSnap at h
  split at h
  · cases h
  · next n _ =>
    cases h
    exact ⟨n, rfl⟩

theorem execFxsave_writesOnly {w : Writes} (hw : w.mem = true) {a : Word} {s t : State}
    (h : execFxsave a s = .next t) : WritesOnly w s t :=
  finishNoResult_writesOnly
    (andThen_writesOnly (alignCheck_writesOnly a s) fun _ t =>
      andThen_writesOnly (checkWritable_writesOnly a 512 t) fun _ u => writeFields_writesOnly hw a _ u) h

theorem execFxrstor_writesOnly {w : Writes} (hw : w.fx = true) {a : Word} {s t : State}
    (h : execFxrstor a s = .next t) : WritesOnly w s t := by
  refine finishNoResult_writesOnly
    (andThen_writesOnly (alignCheck_writesOnly a s) fun _ t =>
      andThen_writesOnly (checkReadable_writesOnly a 512 t) fun _ u =>
        andThen_writesOnly (memRead_writesOnly 32 _ u) fun newMxcsr v => ?_) h
  split
  · exact .refl v
  · exact andThen_writesOnly (readFields_writesOnly a fxReads v) fun img x =>
      .of_setFx hw (fxRestored_statusRest _ newMxcsr img x.fx)

/-- A command that goes on or faults stays inside its entry of the table. -/
theorem exec_writesOnly {i : Instr} {s t : State} (h : exec i s = .next t) : WritesOnly (writesOf i) s t := by
  cases i with
  | getcf | getpf | getaf | getzf | getsf | getof | testO | testB | testZ | testS | testP | testBe | testL | testLe
  | evalcc | stackEa => exact finish_writesOnly (p := .going _ s) (.refl s) h
  | snap a b c d e f =>
    obtain ⟨n, rfl⟩ := execSnap_next h
    exact (WritesOnly.of_setFl rfl fun _ => loadSnapshot_dirtyMask a b c d n f s.fl).trans (.of_driveResult 0 _)
  | setflags v m => exact finish_writesOnly (p := .going _ _) (.of_setFl rfl (storeFlags_dirtyMask v m s.fl)) h
  | stackAdjust amt => exact finish_writesOnly (p := .going _ _) (.of_adjust rfl amt s) h
  | push16 v => exact finishNoResult_writesOnly (pushValue_writesOnly rfl rfl 2 v s) h
  | push32 v => exact finishNoResult_writesOnly (pushValue_writesOnly rfl rfl 4 v s) h
  | pop16 => exact finish_writesOnly (andThen_writesOnly (popValue_writesOnly rfl 16 s) fun _ t => .refl t) h
  | pop32 => exact finish_writesOnly (popValue_writesOnly rfl 32 s) h
  | pusha16 | pusha32 =>
    exact finishNoResult_writesOnly (andThen_writesOnly (checkWritable_writesOnly _ _ s) fun _ t =>
      pushValues_writesOnly rfl rfl _ _ t) h
  | fxsave a => exact execFxsave_writesOnly rfl h
  | fxrstor a => exact execFxrstor_writesOnly rfl h

end Sys2Proof.Machine
end

section
/-! What an act of the environment leaves alone, and the invariant at reset (10_state.md R26, R27, R29, R35;
70_reset_and_hazards.md R230). -/

namespace Sys2Proof.Machine

/-- The external reset establishes the invariant on canonical memory, whatever it draws (R230). -/
theorem applyReset_inv (r : ResetValues) (s : State) (h : s.mem.wf = true) : Inv (s.applyReset r) :=
  ⟨h, BitVec.zero_and, and_and_not_self r.fx.fswRest fswRestMask⟩

theorem environmentAct_inv (e : EnvironmentAct) (s : State) (h : Inv s) : Inv (environmentAct e s) := by
  have hmem := environmentAct_wf e s h.memory
  cases e with
  | writeFx v => exact ⟨hmem, h.dirtyMask, and_and_not_self v.fswRest fswRestMask⟩
  | reset r => exact applyReset_inv r s h.memory
  | writeGpr | writeOtherFlags | setStackSize32 | setSsBase | writeByte | setPermissions =>
    exact ⟨hmem, h.dirtyMask, h.statusRest⟩

/-- Only the enclosing core's write of the other bits of `flags` touches the flag state between commands (R26). -/
theorem environmentAct_fl (e : EnvironmentAct) (s : State) (h : ∀ r, e ≠ .reset r) :
    (environmentAct e s).fl = s.fl ∨ ∃ v, (environmentAct e s).fl = storeOtherFlags v s.fl := by
  cases e with
  | writeOtherFlags v => exact .inr ⟨v, rfl⟩
  | reset r => exact absurd rfl (h r)
  | writeGpr | setStackSize32 | setSsBase | writeFx | writeByte | setPermissions => exact .inl rfl

/-- The enclosing core's write keeps the six status bits (R26). -/
theorem storeOtherFlags_status (v : Word) (f : FlagState) :
    (storeOtherFlags v f).flags &&& statusMask = f.flags &&& statusMask := by
  ext i hi
  simp only [storeOtherFlags, BitVec.getElem_and, BitVec.getElem_or, BitVec.getElem_not]
  cases statusMask[i] <;> simp

/-- A step at an act of the environment. -/
theorem step_environment {s : State} {e : EnvironmentAct} {rest : List Input} (h : s.inputs = .environment e :: rest) :
    step s = .next (environmentAct e { s with inputs := rest }) := by
  simp only [step, h]

/-- Settles O7: no act but the reset writes the flag state, except that the enclosing core writes bits of `flags` outside
STATUS_MASK. -/
theorem environmentLeavesTheFlagEngine : Obligations.EnvironmentLeavesTheFlagEngine := by
  intro s e rest hhead hreset
  refine ⟨_, step_environment hhead, ?_⟩
  obtain ⟨hparams, hresponse, hbus, hinputs⟩ := environmentAct_outputs e { s with inputs := rest }
  rcases environmentAct_fl e { s with inputs := rest } hreset with hfl | ⟨v, hfl⟩
  · rw [hfl]
    exact ⟨hinputs, rfl, rfl, rfl, rfl, rfl, rfl, rfl, hparams, hresponse, hbus⟩
  · rw [hfl]
    exact ⟨hinputs, storeOtherFlags_status v s.fl, rfl, rfl, rfl, rfl, rfl, rfl, hparams, hresponse, hbus⟩

/-- Settles O50: the reset state is the external reset of a machine with empty memory. -/
theorem resetMeetsTheInvariant : Obligations.ResetMeetsTheInvariant :=
  fun r => applyReset_inv r _ rfl

end Sys2Proof.Machine
end

section
/-! Which command writes what, read off the table, and the invariant of every step. -/

namespace Sys2Proof.Machine

theorem writesOf_esp {i : Instr} (h : isStackCommand i = false ∨ ∃ off, i = .stackEa off) : (writesOf i).esp = false := by
  rcases h with h | ⟨off, rfl⟩
  · cases i with
    | stackEa | stackAdjust | push16 | push32 | pop16 | pop32 | pusha16 | pusha32 => cases h
    | _ => rfl
  · rfl

theorem writesOf_fl {i : Instr} (hset : ∀ v m, i ≠ .setflags v m) (hsnap : ∀ a b c d e f, i ≠ .snap a b c d e f) :
    (writesOf i).fl = false := by
  cases i with
  | setflags v m => exact absurd rfl (hset v m)
  | snap a b c d e f => exact absurd rfl (hsnap a b c d e f)
  | _ => rfl

theorem writesOf_fx {i : Instr} (h : ∀ a, i ≠ .fxrstor a) : (writesOf i).fx = false := by
  cases i with
  | fxrstor a => exact absurd rfl (h a)
  | _ => rfl

theorem writesOf_mem {i : Instr} (h16 : ∀ v, i ≠ .push16 v) (h32 : ∀ v, i ≠ .push32 v) (ha16 : i ≠ .pusha16)
    (ha32 : i ≠ .pusha32) (hfx : ∀ a, i ≠ .fxsave a) : (writesOf i).mem = false := by
  cases i with
  | push16 v => exact absurd rfl (h16 v)
  | push32 v => exact absurd rfl (h32 v)
  | pusha16 => exact absurd rfl ha16
  | pusha32 => exact absurd rfl ha32
  | fxsave a => exact absurd rfl (hfx a)
  | _ => rfl

/-- Settles O45: the entries that allow ESP are those of the stack commands other than STACK_EA. -/
theorem onlyStackCommandsMoveEsp : Obligations.OnlyStackCommandsMoveEsp := by
  intro i s t h
  have hw := exec_writesOnly h
  exact ⟨hw.otherRegs, fun hi => hw.gpr (writesOf_esp hi)⟩

/-- Settles O46: outside the two write ports the flag state is in no entry; each port writes its own part of it. -/
theorem onlyTheWritePortsWriteFlagState : Obligations.OnlyTheWritePortsWriteFlagState := by
  intro i s t h
  have hothers (hset : ∀ v m, i ≠ .setflags v m) (hsnap : ∀ a b c d e f, i ≠ .snap a b c d e f) : t.fl = s.fl :=
    (exec_writesOnly h).fl (writesOf_fl hset hsnap)
  refine ⟨fun hset => ?_, fun hsnap => ?_, hothers⟩
  · by_cases hsnap : ∀ a b c d e f, i ≠ .snap a b c d e f
    · rw [hothers hset hsnap]
    · push Not at hsnap
      obtain ⟨a, b, c, d, e, f, rfl⟩ := hsnap
      obtain ⟨n, rfl⟩ := execSnap_next h
      rfl
  · by_cases hset : ∀ v m, i ≠ .setflags v m
    · rw [hothers hset hsnap]
      exact ⟨rfl, rfl, rfl, rfl, rfl⟩
    · push Not at hset
      obtain ⟨v, m, rfl⟩ := hset
      cases h
      exact ⟨rfl, rfl, rfl, rfl, rfl⟩

/-- Settles O47: no entry holds an input; the FPU state is in the entry of FXRSTOR alone, memory in those of the pushes and
FXSAVE. -/
theorem commandsKeepTheirInputs : Obligations.CommandsKeepTheirInputs := by
  intro i s t h
  have hw := exec_writesOnly h
  exact ⟨hw.inputs, fun hi => hw.fx (writesOf_fx hi),
    fun h16 h32 ha16 ha32 hfx => hw.mem (writesOf_mem h16 h32 ha16 ha32 hfx)⟩

/-- Settles O52: an idle step changes nothing, an act of the environment and a command each keep the invariant. -/
theorem everyStepKeepsTheInvariant : Obligations.EveryStepKeepsTheInvariant := by
  intro s t hs hstep
  have hrest (rest : List Input) : Inv { s with inputs := rest } := hs.congr rfl rfl rfl
  rcases step_next_cases hstep with ⟨-, rfl⟩ | ⟨e, rest, -, rfl⟩ | ⟨c, i, rest, -, -, hexec⟩
  · exact hs
  · exact environmentAct_inv e _ (hrest rest)
  · exact (exec_writesOnly hexec).inv (hrest rest)

end Sys2Proof.Machine
end

section
/-! The bytes that a write puts and a read answers, seen through the primitives (20_memory.md R62). -/

namespace Sys2Proof.Machine

/-- Byte k of a load is the byte at `a + k` (R62, R63). -/
theorem loadBytes_getElem (m : Memory) (a : Word) (n k : Nat) (h : k < (loadBytes m a n).length) :
    (loadBytes m a n)[k] = memGet m (a + BitVec.ofNat 32 k).toNat := by
  induction n generalizing a k with
  | zero => simp [loadBytes] at h
  | succ n ih =>
    cases k with
    | zero => simp [loadBytes]
    | succ k => simp [loadBytes, ih, BitVec.add_assoc, ← BitVec.ofNat_add, Nat.add_comm]

/-- Byte k of the stored bytes stands at `a + k` (R62). -/
theorem memGet_storeBytes_inside (bs : List Byte) (m : Memory) (a : Word) (hlen : bs.length ≤ 2 ^ 32) (k : Nat)
    (hk : k < bs.length) : memGet (storeBytes m a bs) (a + BitVec.ofNat 32 k).toNat = bs[k] := by
  have hload := loadBytes_getElem (storeBytes m a bs) a bs.length k (by simpa using hk)
  simpa only [loadBytes_storeBytes_same bs m a hlen] using hload.symm

/-- The low bytes of a value are those of the value cut to their width. -/
theorem extractLsb'_byte_setWidth {w : Nat} (v : BitVec w) (m k : Nat) (hk : k < m) :
    (v.setWidth (8 * m)).extractLsb' (8 * k) 8 = v.extractLsb' (8 * k) 8 := by
  ext i hi
  have hin : 8 * k + i < 8 * m := by omega
  simp [hin]

/-- A read that finds the low bytes of a value in place answers the value cut to their width (R62). -/
theorem memRead_lowBytes {w : Nat} (t : State) (a : Word) (m : Nat) (v : BitVec w) (hreadable : AllReadable t a m)
    (h : ∀ k, k < m → memGet t.mem (a + BitVec.ofNat 32 k).toNat = v.extractLsb' (8 * k) 8) :
    memRead (8 * m) a t = .going (v.setWidth (8 * m)) (record (.read a m) t) := by
  have hwidth : 8 * m / 8 = m := Nat.mul_div_cancel_left m (by decide)
  have hbytes : loadBytes t.mem a m = toBytes m (v.setWidth (8 * m)) := by
    refine List.ext_getElem (by simp) fun k hk _ => ?_
    have hkm : k < m := by simpa using hk
    rw [loadBytes_getElem, toBytes_getElem, h k hkm, extractLsb'_byte_setWidth v m k hkm]
  rw [memRead_ok _ _ _ (hwidth.symm ▸ hreadable), hwidth, hbytes, fromBytes_toBytes m _ _ le_rfl]

/-- Settles O40: the write puts its bytes at their addresses, and the read makes its value of the bytes it finds there. -/
theorem readsSeeTheWrittenBytesLittleEndian : Obligations.ReadsSeeTheWrittenBytesLittleEndian := by
  intro s a n m v hn hmn hwritable hreadable
  have hinside (k : Nat) (hk : k < n) :
      memGet (storeBytes s.mem a (toBytes n v)) (a + BitVec.ofNat 32 k).toNat = v.extractLsb' (8 * k) 8 := by
    rw [memGet_storeBytes_inside _ _ _ (by rw [toBytes_length]; omega) k (by simpa using hk), toBytes_getElem]
  refine ⟨_, writeBytes_ok a (toBytes n v) s (by simpa using hwritable), hinside,
    fun x hx => memGet_storeBytes_outside _ _ _ _ (by simpa using hx), ?_⟩
  have hlow : AllReadable s a m := hreadable.sub (by simpa using addrsFrom_sub a 0 m n (by omega))
  exact ⟨_, memRead_lowBytes _ a m v ((AllReadable.congr rfl).2 hlow) fun k hk => hinside k (by omega)⟩

end Sys2Proof.Machine
end

section
/-! What an operation that goes on has done, and the accesses of a command that ends `Ok` (20_memory.md R60, R61, R68, R71). -/

namespace Sys2Proof.Machine

/-! ### Going on -/

/-- A sequence goes on when both of its parts do (00_scope.md R12). -/
theorem andThen_eq_going {α β : Type} {p : Progress α} {k : α → State → Progress β} {w : β} {u : State}
    (h : andThen p k = .going w u) : ∃ v t, p = .going v t ∧ k v t = .going w u := by
  cases p with
  | going v t => exact ⟨v, t, rfl, h⟩
  | raised f t => cases h

/-- A command answers `Ok` when its body goes on (60_exceptions.md R200). -/
theorem finish_ok {p : Progress Word} {t : State} {y : Word} (h : finish p = .next t) (hok : t.response = .ok y) :
    ∃ u, p = .going y u ∧ t = driveResult y u := by
  cases p with
  | going z u => cases h; cases hok; exact ⟨u, rfl, rfl⟩
  | raised f u => cases h; cases hok

theorem finishNoResult_ok {p : Progress Unit} {t : State} {y : Word} (h : finishNoResult p = .next t)
    (hok : t.response = .ok y) : ∃ u, p = .going () u ∧ t = driveResult y u := by
  obtain ⟨u, hbody, rfl⟩ := finish_ok h hok
  obtain ⟨_, _, hp, hend⟩ := andThen_eq_going hbody
  cases hend
  exact ⟨u, hp, rfl⟩

/-- A permission that holds changes nothing (20_memory.md R64). -/
theorem faultUnlessAll_eq_going {bad : List Word} {acc : Access} {s t : State} {v : Unit}
    (h : faultUnlessAll bad acc s = .going v t) : t = s := by
  cases bad with
  | nil => cases h; rfl
  | cons x bad => cases h

theorem checkWritable_eq_going {a : Word} {n : Nat} {s t : State} {v : Unit} (h : checkWritable a n s = .going v t) :
    t = record (.checkWritable a n) s := faultUnlessAll_eq_going h

theorem checkReadable_eq_going {a : Word} {n : Nat} {s t : State} {v : Unit} (h : checkReadable a n s = .going v t) :
    t = record (.checkReadable a n) s := faultUnlessAll_eq_going h

theorem alignCheck_eq_going {a : Word} {s t : State} {v : Unit} (h : alignCheck a s = .going v t) : t = s := by
  unfold alignCheck at h
  split at h <;> cases h
  rfl

theorem readBytes_eq_going {a : Word} {n : Nat} {s t : State} {bs : List Byte} (h : readBytes a n s = .going bs t) :
    t = record (.read a n) s := by
  obtain ⟨_, u, hpermitted, hload⟩ := andThen_eq_going h
  cases hload
  exact faultUnlessAll_eq_going hpermitted

theorem memRead_eq_going {w : Nat} {a : Word} {s t : State} {v : BitVec w} (h : memRead w a s = .going v t) :
    t = record (.read a (w / 8)) s := by
  obtain ⟨_, u, hread, hvalue⟩ := andThen_eq_going h
  cases hvalue
  exact readBytes_eq_going hread

theorem writeBytes_eq_going {a : Word} {bs : List Byte} {s t : State} {v : Unit} (h : writeBytes a bs s = .going v t) :
    t = { record (.write a bs) s with mem := storeBytes s.mem a bs } := by
  obtain ⟨_, u, hpermitted, hstore⟩ := andThen_eq_going h
  cases hstore
  rw [faultUnlessAll_eq_going hpermitted, record_mem]

theorem popValue_eq_going {w : Nat} {s t : State} {v : BitVec w} (h : popValue w s = .going v t) :
    t = adjust (BitVec.ofNat 32 (w / 8)) (record (.read (s.ssBase + spVal s) (w / 8)) s) := by
  obtain ⟨_, u, hread, hcommit⟩ := andThen_eq_going h
  cases hcommit
  rw [memRead_eq_going hread]

theorem pushValue_eq_going {w n : Nat} {v : BitVec w} {s t : State} {r : Unit} (h : pushValue n v s = .going r t) :
    t = adjust (-(BitVec.ofNat 32 n)) { record (.write (ea s (-(BitVec.ofNat 32 n))) (toBytes n v)) s with
      mem := storeBytes s.mem (ea s (-(BitVec.ofNat 32 n))) (toBytes n v) } := by
  obtain ⟨_, u, hwrite, hcommit⟩ := andThen_eq_going h
  cases hcommit
  rw [writeBytes_eq_going hwrite]

/-! ### The calls of a run of accesses -/

theorem writeFields_bus {a : Word} {fields : List (Nat × List Byte)} {s t : State} {v : Unit}
    (h : writeFields a fields s = .going v t) :
    t.bus = s.bus ++ fields.map (fun e => .write (a + BitVec.ofNat 32 e.1) e.2) := by
  induction fields generalizing s with
  | nil => cases h; simp
  | cons e rest ih =>
    obtain ⟨_, u, hfirst, hrest⟩ := andThen_eq_going h
    rw [ih hrest, writeBytes_eq_going hfirst]
    simp

theorem readFields_bus {a : Word} {fields : List (Nat × Nat)} {s t : State} {img : List (Nat × List Byte)}
    (h : readFields a fields s = .going img t) :
    t.bus = s.bus ++ fields.map (fun e => .read (a + BitVec.ofNat 32 e.1) e.2) := by
  induction fields generalizing s t img with
  | nil => cases h; simp
  | cons e rest ih =>
    obtain ⟨bs, u, hfirst, hothers⟩ := andThen_eq_going h
    obtain ⟨img', u', hrest, hend⟩ := andThen_eq_going hothers
    cases hend
    rw [ih hrest, readBytes_eq_going hfirst]
    simp

/-- Where the pointer has moved below one slot, the slots are the next ones (41_stack.md R141, R142). -/
theorem pushaSlot_adjust (s : State) (n j : Nat) :
    pushaSlot (adjust (-(BitVec.ofNat 32 n)) s) n j = pushaSlot s n (j + 1) := by
  have hoffset : -(BitVec.ofNat 32 n) + -(BitVec.ofNat 32 (n * (j + 1))) = -(BitVec.ofNat 32 (n * (j + 1 + 1))) := by
    rw [← neg_add, ← BitVec.ofNat_add, Nat.mul_succ n (j + 1), Nat.add_comm]
  rw [pushaSlot, ea_adjust, hoffset, pushaSlot]

/-- Pushes write the slots in order (R148, R149). -/
theorem pushValues_bus {w n : Nat} {vs : List (BitVec w)} {s t : State} {r : Unit} (h : pushValues n vs s = .going r t) :
    t.bus = s.bus ++ vs.mapIdx (fun j v => .write (pushaSlot s n j) (toBytes n v)) := by
  induction vs generalizing s with
  | nil => cases h; simp
  | cons v vs ih =>
    obtain ⟨_, u, hfirst, hrest⟩ := andThen_eq_going h
    have hslot (j : Nat) : pushaSlot u n j = pushaSlot s n (j + 1) := by
      rw [pushValue_eq_going hfirst]
      exact pushaSlot_adjust _ n j
    simp only [ih hrest, hslot, List.mapIdx_cons]
    simp [pushValue_eq_going hfirst, pushaSlot]

/-! ### The commands -/

/-- A PUSHA that goes on: the check of the block, then the eight slots (R148, R149). -/
theorem pusha_bus {w n len : Nat} {a : Word} {reg : Fin 8 → BitVec w} {s t : State} {r : Unit}
    (h : andThen (checkWritable a len s) (fun _ u => pushValues n (indices.map reg) u) = .going r t) :
    t.bus = s.bus ++ .checkWritable a len ::
      indices.map (fun j => .write (pushaSlot s n j.val) (toBytes n (reg j))) := by
  obtain ⟨_, u, hcheck, hpushes⟩ := andThen_eq_going h
  rw [pushValues_bus hpushes, checkWritable_eq_going hcheck, record_bus, List.append_assoc]
  rfl

/-- FXSAVE that ends `Ok`: the check, then the writes of the image (42_fxstate.md R174). -/
theorem execFxsave_bus {a : Word} {s t : State} {y : Word} (h : execFxsave a s = .next t) (hok : t.response = .ok y) :
    t.bus = s.bus ++ .checkWritable a 512 ::
      (fxImage s.params.mxcsrMask s.fx).map (fun e => .write (a + BitVec.ofNat 32 e.1) e.2) := by
  obtain ⟨u, hbody, rfl⟩ := finishNoResult_ok h hok
  obtain ⟨_, s₁, halign, hbody⟩ := andThen_eq_going hbody
  obtain ⟨_, s₂, hcheck, hwrites⟩ := andThen_eq_going hbody
  rw [checkWritable_eq_going hcheck, alignCheck_eq_going halign] at hwrites
  rw [driveResult_bus, writeFields_bus hwrites]
  simp

/-- FXRSTOR that ends `Ok`: the check, the read of MXCSR, then the other reads (R175). -/
theorem execFxrstor_bus {a : Word} {s t : State} {y : Word} (h : execFxrstor a s = .next t) (hok : t.response = .ok y) :
    t.bus = s.bus ++ .checkReadable a 512 :: .read (a + 24) 4 ::
      fxReads.map (fun e => .read (a + BitVec.ofNat 32 e.1) e.2) := by
  obtain ⟨u, hbody, rfl⟩ := finishNoResult_ok h hok
  obtain ⟨_, s₁, halign, hbody⟩ := andThen_eq_going hbody
  obtain ⟨_, s₂, hcheck, hbody⟩ := andThen_eq_going hbody
  obtain ⟨newMxcsr, s₃, hmxcsr, hbody⟩ := andThen_eq_going hbody
  split at hbody
  · cases hbody
  · obtain ⟨img, s₄, hreads, hend⟩ := andThen_eq_going hbody
    cases hend
    rw [memRead_eq_going hmxcsr, checkReadable_eq_going hcheck, alignCheck_eq_going halign] at hreads
    rw [driveResult_bus, readFields_bus hreads]
    simp

/-- Settles O48: a command that ends `Ok` had every part of its body go on, and each part records its own calls. -/
theorem commandsMakeExactlyTheirAccesses : Obligations.CommandsMakeExactlyTheirAccesses := by
  intro i s t y h hok
  cases i with
  | getcf | getpf | getaf | getzf | getsf | getof | testO | testB | testZ | testS | testP | testBe | testL | testLe
  | evalcc | setflags | stackEa =>
    cases h
    exact (List.append_nil _).symm
  | snap a b c d e f =>
    obtain ⟨n, rfl⟩ := execSnap_next h
    exact (List.append_nil _).symm
  | stackAdjust amt =>
    cases h
    simp
  | push16 v | push32 v =>
    obtain ⟨u, hpush, rfl⟩ := finishNoResult_ok h hok
    rw [pushValue_eq_going hpush]
    simp
  | pop16 =>
    obtain ⟨u, hbody, rfl⟩ := finish_ok h hok
    obtain ⟨v, u', hpop, hend⟩ := andThen_eq_going hbody
    cases hend
    rw [popValue_eq_going hpop]
    simp
  | pop32 =>
    obtain ⟨u, hpop, rfl⟩ := finish_ok h hok
    rw [popValue_eq_going hpop]
    simp
  | pusha16 | pusha32 =>
    obtain ⟨u, hbody, rfl⟩ := finishNoResult_ok h hok
    rw [driveResult_bus, pusha_bus hbody]
  | fxsave a => exact execFxsave_bus h hok
  | fxrstor a => exact execFxrstor_bus h hok

end Sys2Proof.Machine
end

section
/-! The command word, the opcode map and the decoder: which words and ports carry which command (30_encoding.md R81 to R85). -/

namespace Sys2Proof.Machine

/-! ### The fields of a word -/

/-- A word is its three fields (R81). -/
theorem word_eq_iff_fields {w v : Word} :
    w = v ↔ opcField w = opcField v ∧ ccField w = ccField v ∧ rsvField w = rsvField v := by
  refine ⟨fun h => h ▸ ⟨rfl, rfl, rfl⟩, fun ⟨hopc, hcc, hrsv⟩ => ?_⟩
  have hfields (u : Word) : u = rsvField u ++ (ccField u ++ opcField u) := by
    simp only [rsvField, ccField, opcField, BitVec.extractLsb'_append_extractLsb'_eq_extractLsb', BitVec.extractLsb'_eq_self]
  rw [hfields w, hfields v, hopc, hcc, hrsv]

theorem opcField_wordOf_evalcc (cc : BitVec 4) : opcField (wordOf (.evalcc cc)) = 0x20 := by
  revert cc; decide

theorem ccField_wordOf_evalcc (cc : BitVec 4) : ccField (wordOf (.evalcc cc)) = cc := by
  revert cc; decide

open Laws in
/-- Every command's word keeps the format of R81: RSV is 0, and CC is 0 outside EVAL_CC. -/
theorem wordOf_format (i : Instr) :
    rsvField (wordOf i) = 0 ∧ (opcField (wordOf i) = 0x20 ∨ ccField (wordOf i) = 0) := by
  have h : EncodedWord.Statement i := by
    cases i
    exacts [EncodedWord.getcf, EncodedWord.getpf, EncodedWord.getaf, EncodedWord.getzf, EncodedWord.getsf, EncodedWord.getof,
      EncodedWord.testO, EncodedWord.testB, EncodedWord.testZ, EncodedWord.testS, EncodedWord.testP, EncodedWord.testBe,
      EncodedWord.testL, EncodedWord.testLe, EncodedWord.evalcc _, EncodedWord.snap _ _ _ _ _ _, EncodedWord.setflags _ _,
      EncodedWord.stackEa _, EncodedWord.stackAdjust _, EncodedWord.push16 _, EncodedWord.push32 _, EncodedWord.pop16,
      EncodedWord.pop32, EncodedWord.pusha16, EncodedWord.pusha32, EncodedWord.fxsave _, EncodedWord.fxrstor _]
  exact h

/-! ### The rows of the map -/

/-- PUSH16 takes its value from bits 15:0 of port A and from no other bit (R85). -/
theorem and_lowHalfMask_eq_iff (a : Word) (v : Half) : a &&& 0xFFFF = v.setWidth 32 &&& 0xFFFF ↔ v = a.extractLsb' 0 16 := by
  have hmask (u : Word) : (u &&& 0xFFFF).toNat = u.toNat % 2 ^ 16 := by
    simpa using Nat.and_two_pow_sub_one_eq_mod u.toNat 16
  have hfits : v.toNat < 2 ^ 16 := v.isLt
  rw [← BitVec.toNat_inj, ← BitVec.toNat_inj, hmask, hmask, BitVec.toNat_setWidth, BitVec.extractLsb'_toNat, Nat.shiftRight_zero]
  omega

/-- What it takes for an operation code, a `CC` field and port values to carry a command: they are those of its encoding as far as
the command names them (R81 to R85). -/
structure Carries (opc : BitVec 8) (cc : BitVec 4) (p : Ports) (i : Instr) : Prop where
  opc_eq : opc = opcField (wordOf i)
  cc_eq : opc = 0x20 → cc = ccField (wordOf i)
  ports_eq : namedPorts i p = namedPorts i (portsOf i)

/-- A command other than EVAL_CC does not look at the `CC` field (R81). -/
theorem Carries.of_opc_ne {opc : BitVec 8} {cc : BitVec 4} {p : Ports} {i : Instr} (hopc : opc = opcField (wordOf i))
    (hne : opc ≠ 0x20) (hports : namedPorts i p = namedPorts i (portsOf i)) : Carries opc cc p i :=
  ⟨hopc, fun h => absurd h hne, hports⟩

/-- Each row of the map of R83 stands at its command's own operation code and takes its operands from the ports it names. -/
theorem carries_of_mem_opcodeMap {opc : BitVec 8} {cc : BitVec 4} {p : Ports} {i : Instr} (h : (opc, i) ∈ opcodeMap cc p) :
    Carries opc cc p i := by
  cases i <;> simp only [opcodeMap, List.mem_cons, List.not_mem_nil, Prod.mk.injEq, Instr.snap.injEq, Instr.setflags.injEq,
    Instr.evalcc.injEq, Instr.stackEa.injEq, Instr.stackAdjust.injEq, Instr.push16.injEq, Instr.push32.injEq,
    Instr.fxsave.injEq, Instr.fxrstor.injEq, reduceCtorEq, and_false, and_true, or_false, false_or] at h
  case evalcc =>
    obtain ⟨rfl, rfl⟩ := h
    exact ⟨(opcField_wordOf_evalcc _).symm, fun _ => (ccField_wordOf_evalcc _).symm, rfl⟩
  case push16 =>
    obtain ⟨rfl, hvalue⟩ := h
    exact .of_opc_ne rfl (by decide) (congrArg (fun a => [a]) ((and_lowHalfMask_eq_iff _ _).2 hvalue))
  case snap =>
    obtain ⟨rfl, rfl, rfl, rfl, rfl, rfl, rfl⟩ := h
    exact .of_opc_ne rfl (by decide) rfl
  case setflags =>
    obtain ⟨rfl, rfl, rfl⟩ := h
    exact .of_opc_ne rfl (by decide) rfl
  case stackEa | stackAdjust | push32 | fxsave | fxrstor =>
    obtain ⟨rfl, rfl⟩ := h
    exact .of_opc_ne rfl (by decide) rfl
  all_goals
    subst h
    exact .of_opc_ne rfl (by decide) rfl

/-- The lookup in the map answers exactly the commands that its arguments carry: the codes of the map are pairwise different. -/
theorem commandOf_eq_some_iff {opc : BitVec 8} {cc : BitVec 4} {p : Ports} {i : Instr} :
    commandOf opc cc p = some i ↔ Carries opc cc p i := by
  constructor
  · intro h
    obtain ⟨before, after, hmap, -⟩ := List.lookup_eq_some_iff.1 h
    exact carries_of_mem_opcodeMap (by simp [hmap])
  · rintro ⟨rfl, hcc, hports⟩
    cases i with
    | evalcc =>
      rw [opcField_wordOf_evalcc] at hcc ⊢
      rw [hcc rfl, ccField_wordOf_evalcc]
      rfl
    | push16 =>
      rw [(and_lowHalfMask_eq_iff _ _).1 (List.head_eq_of_cons_eq hports)]
      rfl
    | snap | setflags | stackEa | stackAdjust | push32 | fxsave | fxrstor =>
      cases p
      cases hports
      rfl
    | _ => rfl

/-! ### The decoder -/

/-- The three tests of the decoder, which a command's word has to pass (R86). -/
theorem decode_eq_ok_iff {w : Word} {p : Ports} {i : Instr} :
    decode ⟨w, p⟩ = .ok i ↔
      commandOf (opcField w) (ccField w) p = some i ∧ rsvField w = 0 ∧ (opcField w = 0x20 ∨ ccField w = 0) := by
  cases hmap : commandOf (opcField w) (ccField w) p with
  | none => simp [decode, hmap]
  | some j =>
    simp only [decode, hmap]
    split_ifs with hrsv hcond
    · exact iff_of_false (by simp) fun h => hrsv h.2.1
    · exact iff_of_false (by simp) fun h => h.2.2.elim hcond.1 hcond.2
    · have hlegal : opcField w = 0x20 ∨ ccField w = 0 := by tauto
      simp only [Except.ok.injEq, Option.some.injEq, not_not.1 hrsv, hlegal, and_true]

/-- A command is read from its own word beside any ports that carry its operands (R82, R85). -/
theorem decode_wordOf {i : Instr} {p : Ports} (hports : namedPorts i p = namedPorts i (portsOf i)) :
    decode ⟨wordOf i, p⟩ = .ok i :=
  decode_eq_ok_iff.2 ⟨commandOf_eq_some_iff.2 ⟨rfl, fun _ => rfl, hports⟩, wordOf_format i⟩

/-- Settles O2: the ports of the encoding carry the operands. -/
theorem everyCommandDecodesFromItsEncoding : Obligations.EveryCommandDecodesFromItsEncoding :=
  fun _ => decode_wordOf rfl

/-- Settles O3: an accepted word has the three fields of its command's word, so it is that word. -/
theorem acceptedWordsAreTheEncodedWords : Obligations.AcceptedWordsAreTheEncodedWords := by
  intro w p i
  constructor
  · intro h
    obtain ⟨hmap, hrsv, hcond⟩ := decode_eq_ok_iff.1 h
    obtain ⟨hopc, hcc, hports⟩ := commandOf_eq_some_iff.1 hmap
    obtain ⟨hrsv', hcond'⟩ := wordOf_format i
    have hcc' : ccField w = ccField (wordOf i) := by
      by_cases heval : opcField w = 0x20
      · exact hcc heval
      · rw [hcond.resolve_left heval, hcond'.resolve_left (hopc ▸ heval)]
    exact ⟨word_eq_iff_fields.2 ⟨hopc, hcc', hrsv.trans hrsv'.symm⟩, hports⟩
  · rintro ⟨rfl, hports⟩
    exact decode_wordOf hports

/-- Settles O1: the decoder's tests look at the word alone, so it computes its answer for each word beside arbitrary ports. -/
theorem wordsOfTheOpcodeMapDecode : Obligations.WordsOfTheOpcodeMapDecode := by
  intro p
  exact ⟨rfl, rfl, rfl, rfl, rfl, rfl, rfl, rfl, rfl, rfl, rfl, rfl, rfl, rfl, rfl, rfl, rfl, rfl⟩

end Sys2Proof.Machine
end

section
/-! Refusals: the illegal command words, and the one refusal of a command itself (30_encoding.md R86; 60_exceptions.md R204). -/

namespace Sys2Proof.Machine

/-- A word is no command when its operation code has no row, or it fails one of the two other tests (R86). -/
theorem decode_ne_ok_iff {c : Command} :
    (∀ i, decode c ≠ .ok i) ↔ opcField c.word ∉ (opcodeMap (ccField c.word) c.ports).map Prod.fst ∨ rsvField c.word ≠ 0 ∨
      (ccField c.word ≠ 0 ∧ opcField c.word ≠ 0x20) := by
  have hlisted : opcField c.word ∉ (opcodeMap (ccField c.word) c.ports).map Prod.fst ↔
      commandOf (opcField c.word) (ccField c.word) c.ports = none := by
    rw [commandOf, List.lookup_eq_none_iff]
    simp only [List.mem_map, not_exists, not_and, bne_iff_ne, ne_eq, eq_comm (a := opcField c.word)]
  simp only [ne_eq, decode_eq_ok_iff (w := c.word) (p := c.ports), hlisted]
  cases commandOf (opcField c.word) (ccField c.word) c.ports with
  | none => simp
  | some j =>
    simp only [Option.some.injEq, not_and, forall_eq', reduceCtorEq, false_or]
    tauto

/-- Ending a command never refuses it (60_exceptions.md R200). -/
theorem finish_ne_refused (p : Progress Word) (r : Refusal) : finish p ≠ .refused r := by
  cases p <;> nofun

/-- SNAP_WRITE with an operand size that is not legal is all that a command refuses (R204, 40_flags.md R117). -/
theorem exec_refused {i : Instr} {s : State} {r : Refusal} (h : exec i s = .refused r) : r = .badOpSize := by
  cases i with
  | snap a b c d e f =>
    change execSnap a b c d e f s = _ at h
    unfold execSnap at h
    split at h
    · cases h
      rfl
    · exact absurd h (finish_ne_refused _ _)
  | push16 | push32 | pop16 | pop32 | pusha16 | pusha32 | fxsave | fxrstor => exact absurd h (finish_ne_refused _ _)
  | _ => exact absurd h (finish_ne_refused (.going _ _) _)

/-- No command answers `undefined_command`, so this refusal is the decoder's. -/
theorem step_undefinedCommand_iff {s : State} {c : Command} {rest : List Input} (hhead : s.inputs = .command c :: rest) :
    step s = .refused .undefinedCommand ↔ ∀ i, decode c ≠ .ok i := by
  cases hdecode : decode c with
  | error u => simp [step, hhead, hdecode]
  | ok i =>
    rw [stepPerformsTheIssuedCommand s c rest i hhead hdecode]
    refine iff_of_false (fun h => ?_) fun h => h i rfl
    cases exec_refused h

/-- Settles O4: the step refuses the word when the decoder reads no command from it, which is when a test of R86 fails. -/
theorem undefinedCommandsAreExactlyTheIllegalWords : Obligations.UndefinedCommandsAreExactlyTheIllegalWords := by
  intro s c rest hhead
  exact (step_undefinedCommand_iff hhead).trans decode_ne_ok_iff

end Sys2Proof.Machine
end

section
/-! EVAL_CC by its condition codes (30_encoding.md R84; 40_flags.md R116). -/

namespace Sys2Proof.Machine

/-- The condition of a code is its base, negated as the code says. -/
theorem evalCondition_code (c : Cond) (negated : Bool) (f : FlagState) :
    evalCondition (c.code negated) f = (condHolds c f ^^ negated) := by
  cases c <;> cases negated <;> rfl

theorem exec_evalcc_code (c : Cond) (negated : Bool) (s : State) : exec (.evalcc (c.code negated)) s =
    .next { s with response := .ok (if condHolds c s.fl ^^ negated then 1 else 0) } := by
  rw [← evalCondition_code]
  rfl

/-- Settles O11: the sixteen codes are those of the eight conditions and their negations. -/
theorem evalCcAnswersTheSixteenConditions : Obligations.EvalCcAnswersTheSixteenConditions := by
  intro s
  have plain (c : Cond) : exec (.evalcc (c.code false)) s =
      .next { s with response := .ok (if condHolds c s.fl then 1 else 0) } := by
    simpa only [Bool.xor_false] using exec_evalcc_code c false s
  have negated (c : Cond) : exec (.evalcc (c.code true)) s =
      .next { s with response := .ok (if !condHolds c s.fl then 1 else 0) } := by
    simpa only [Bool.xor_true] using exec_evalcc_code c true s
  exact ⟨fun _ => rfl, plain .o, negated .o, plain .b, negated .b, plain .z, negated .z, plain .be, negated .be,
    plain .s, negated .s, plain .p, negated .p, plain .l, negated .l, plain .le, negated .le⟩

end Sys2Proof.Machine
end

section
/-! `materialize`: FLAGS_WRITE of the word that holds every flag's value (30_encoding.md R88). -/

namespace Sys2Proof.Machine

/-! ### The word -/

/-- A bit at a flag's position is seen through that flag's mask and no other (10_state.md R26). -/
theorem flagBit_and_flagMask (x y : StatusFlag) (b : Bool) :
    (b2w b <<< flagPos x) &&& flagMask y = if x = y then b2w b <<< flagPos x else 0 := by
  cases b <;> cases x <;> cases y <;> rfl

/-- Each flag's bit of the materialized word is its value. -/
theorem materializedFlags_and_flagMask (x : StatusFlag) (f : FlagState) :
    materializedFlags f &&& flagMask x = b2w (flagVal x f) <<< flagPos x := by
  simp only [materializedFlags, allFlags, List.foldr, BitVec.and_or_distrib_right, flagBit_and_flagMask]
  cases x <;> simp

/-- A bit at a flag's position is set exactly when its value is true. -/
theorem flagBit_ne_zero (x : StatusFlag) (b : Bool) : (b2w b <<< flagPos x != 0) = b := by
  cases b <;> cases x <;> rfl

/-! ### The write -/

/-- A clean flag is the stored one (40_flags.md R100). -/
theorem flagVal_of_clean (x : StatusFlag) {f : FlagState} (h : f.flagsChanged = 0) :
    flagVal x f = (f.flags &&& flagMask x != 0) := by
  simp [flagVal, rawFlag, h]

/-- FLAGS_WRITE of all six flags stores the written bit of each. -/
theorem storeFlags_statusMask_and_flagMask (v : Word) (x : StatusFlag) (f : FlagState) :
    (storeFlags v statusMask f).flags &&& flagMask x = v &&& flagMask x := by
  have hkept : ~~~statusMask &&& flagMask x = 0#32 := by cases x <;> rfl
  have hwritten : statusMask &&& flagMask x = flagMask x := by cases x <;> rfl
  simp only [storeFlags, BitVec.and_self, BitVec.and_or_distrib_right, BitVec.and_assoc, hkept, hwritten, BitVec.and_zero,
    BitVec.zero_or]

/-- FLAGS_WRITE keeps the bits that the enclosing core owns (40_flags.md R118, 10_state.md R26). -/
theorem storeFlags_otherFlags (v m : Word) (f : FlagState) :
    (storeFlags v m f).flags &&& ~~~statusMask = f.flags &&& ~~~statusMask := by
  ext i hi
  simp only [storeFlags, BitVec.getElem_and, BitVec.getElem_or, BitVec.getElem_not]
  cases statusMask[i] <;> simp

/-! ### The sequence -/

/-- A flag read only drives a result (40_flags.md R107). -/
theorem exec_flagRead {i : Instr} (h : isFlagRead i = true) (s : State) : ∃ y, exec i s = .next (driveResult y s) := by
  cases i with
  | getcf | getpf | getaf | getzf | getsf | getof | testO | testB | testZ | testS | testP | testBe | testL | testLe | evalcc =>
    exact ⟨_, rfl⟩
  | _ => cases h

/-- Flag reads before other commands leave their mark on the response alone. -/
theorem execAll_flagReads {reads : List Instr} (h : ∀ i ∈ reads, isFlagRead i = true) (rest : List Instr) (s : State) :
    ∃ r, execAll (reads ++ rest) s = execAll rest { s with response := r } := by
  induction reads generalizing s with
  | nil => exact ⟨s.response, rfl⟩
  | cons i reads ih =>
    obtain ⟨hi, hreads⟩ := List.forall_mem_cons.1 h
    obtain ⟨y, hexec⟩ := exec_flagRead hi s
    obtain ⟨r, hrest⟩ := ih hreads (driveResult y s)
    refine ⟨r, ?_⟩
    simp only [List.cons_append, execAll, hexec, hrest]
    rfl

/-- The sequence does what its last command does. -/
theorem execAll_materialize (s : State) : execAll (materialize s) s =
    .next { s with fl := storeFlags (materializedFlags s.fl) statusMask s.fl, response := .ok 0 } := by
  obtain ⟨r, h⟩ := execAll_flagReads (reads := [.getcf, .getpf, .getaf, .getzf, .getsf, .getof]) (by decide)
    [.setflags (materializedFlags s.fl) statusMask] s
  exact h

/-- Settles O23: the getters only answer, and the write stores every flag's value as a clean bit. -/
theorem materializeKeepsEveryFlag : Obligations.MaterializeKeepsEveryFlag := by
  intro s hdirty
  have hclean : (storeFlags (materializedFlags s.fl) statusMask s.fl).flagsChanged = 0 := by
    simpa only [storeFlags, BitVec.and_self] using hdirty
  refine ⟨_, execAll_materialize s, fun x => ?_, hclean, storeFlags_otherFlags _ _ s.fl, rfl, rfl, rfl, rfl,
    ⟨rfl, rfl, rfl, rfl, rfl, rfl⟩⟩
  rw [flagVal_of_clean x hclean, storeFlags_statusMask_and_flagMask, materializedFlags_and_flagMask,
    flagBit_ne_zero]

end Sys2Proof.Machine
end

section
/-! The low part and the sign bit of a word at an operand size (10_state.md R30), and the six computed flags as Boolean functions of
bits of the snapshot (40_flags.md R101 to R106). -/

namespace Sys2Proof.Machine

/-! ### Low parts -/

/-- A low part decides the bits below its width. -/
theorem getLsbD_eq_of_lowPart_eq {k i : Nat} {u v : Word} (h : lowPart k u = lowPart k v) (hi : i < k) :
    u.getLsbD i = v.getLsbD i := by
  have hbit := congrArg (Nat.testBit · i) h
  simpa only [lowPart, Nat.testBit_mod_two_pow, hi, decide_true, Bool.true_and, BitVec.testBit_toNat] using hbit

theorem lowPart_eq_zero_iff (k : Nat) (v : Word) : lowPart k v = 0 ↔ ∀ i < k, v.getLsbD i = false := by
  constructor
  · intro h i hi
    have hzero : lowPart k v = lowPart k 0 := by simpa [lowPart] using h
    simpa using getLsbD_eq_of_lowPart_eq hzero hi
  · intro h
    refine Nat.zero_of_testBit_eq_false fun i => ?_
    rw [lowPart, Nat.testBit_mod_two_pow, BitVec.testBit_toNat]
    by_cases hi : i < k
    · simp [h i hi]
    · simp [hi]

theorem lowPart_eq_toNat (k : Nat) (v : Word) : lowPart k v = (v.setWidth k).toNat := (BitVec.toNat_setWidth k v).symm

theorem lowPart_lt (k : Nat) (v : Word) : lowPart k v < 2 ^ k := Nat.mod_lt _ (Nat.two_pow_pos k)

theorem lowPart_add {k : Nat} (hk : k ≤ 32) (u v : Word) : lowPart k (u + v) = (lowPart k u + lowPart k v) % 2 ^ k := by
  simp only [lowPart, BitVec.toNat_add, Nat.mod_mod_of_dvd _ (Nat.pow_dvd_pow 2 hk), Nat.add_mod_mod, Nat.mod_add_mod]

/-- The carry of an addition into bit `k` is the carry out of its low `k` bits. -/
theorem carry_eq_decide_lowPart (k : Nat) (u v : Word) :
    BitVec.carry k u v false = decide (2 ^ k ≤ lowPart k u + lowPart k v) := rfl

/-- A result that agrees with a sum up to bit `n` has the sum's bit there. -/
theorem getLsbD_of_lowPart_sum {n : Nat} (hn : n < 32) {u v r : Word}
    (h : lowPart (n + 1) r = (lowPart (n + 1) u + lowPart (n + 1) v) % 2 ^ (n + 1)) : r.getLsbD n = (u + v).getLsbD n :=
  getLsbD_eq_of_lowPart_eq (h.trans (lowPart_add hn u v).symm) n.lt_succ_self

/-! ### The sign bit -/

/-- The top bit of a word at an operand size. -/
def signBit (n : OpSize) (v : Word) : Bool := v.getLsbD (opSizeBit n)

theorem opSizeBit_lt (n : OpSize) : opSizeBit n < 32 := by cases n <;> decide

theorem msb_setWidth_opWidth (n : OpSize) (v : Word) : (v.setWidth (opWidth n)).msb = signBit n v := by
  simp [BitVec.msb_setWidth, opWidth, signBit]

theorem signBit_eq_decide_neg (n : OpSize) (v : Word) : signBit n v = decide (signedPart (opWidth n) v < 0) := by
  rw [← msb_setWidth_opWidth, BitVec.msb_eq_toInt, signedPart]

/-! ### One bit as a word -/

theorem b2w_decide (p : Prop) [Decidable p] : b2w (decide p) = if p then 1 else 0 := by simp [b2w]

theorem b2w_ne_zero (b : Bool) : (b2w b != 0) = b := by cases b <;> rfl

theorem shiftRight_and_one (v : Word) (n : Nat) : (v >>> n) &&& 1 = b2w (v.getLsbD n) := by
  have h := BitVec.and_twoPow (v >>> n) 0
  rwa [BitVec.getLsbD_ushiftRight] at h

/-! ### The computed flags -/

/-- CF is the carry out of the sign bit: the majority of the operands' bits and the carry in, which is the inverse of the result's bit
where the operands' bits differ (R101). -/
theorem computedCF_eq (f : FlagState) : computedCF f = b2w (Bool.atLeastTwo (signBit f.lastOpSize f.lastOp1)
    (signBit f.lastOpSize f.lastOp2) (!signBit f.lastOpSize f.lastAddResult)) := by
  have hmajority : ∀ u v r : Bool, (u ^^ ((u ^^ v) && (v ^^ r))) = Bool.atLeastTwo u v (!r) := by decide
  simp only [computedCF, shiftRight_and_one, BitVec.getLsbD_xor, BitVec.getLsbD_and, hmajority, signBit]

/-- OF is set when the operands' sign bits both differ from the result's (R106). -/
theorem computedOF_eq (f : FlagState) : computedOF f =
    b2w ((signBit f.lastOpSize f.lastOp1 ^^ signBit f.lastOpSize f.lastAddResult) &&
      (signBit f.lastOpSize f.lastOp2 ^^ signBit f.lastOpSize f.lastAddResult)) := by
  simp only [computedOF, shiftRight_and_one, BitVec.getLsbD_xor, BitVec.getLsbD_and, signBit]

/-- SF is the sign bit of the result (R105). -/
theorem computedSF_eq (f : FlagState) : computedSF f = b2w (signBit f.lastOpSize f.lastResult) :=
  shiftRight_and_one _ _

/-- ZF is the zero test of the low part: the sign bit is 0 both in the result and in its negation exactly when all bits up to it are 0
(R104). -/
theorem computedZF_eq (f : FlagState) : computedZF f = b2w (decide (lowPart (opWidth f.lastOpSize) f.lastResult = 0)) := by
  have hor : ~~~f.lastResult &&& (f.lastResult - 1) = ~~~(f.lastResult ||| -f.lastResult) := by
    rw [BitVec.not_or, BitVec.not_neg]
    rfl
  have hn := opSizeBit_lt f.lastOpSize
  rw [computedZF, shiftRight_and_one, hor, BitVec.getLsbD_not, BitVec.getLsbD_or, BitVec.getLsbD_neg]
  congr 1
  rw [Bool.eq_iff_iff, decide_eq_true_iff, lowPart_eq_zero_iff, opWidth, Nat.forall_lt_succ_right]
  cases f.lastResult.getLsbD (opSizeBit f.lastOpSize) <;> simp [hn]

/-- AF is the exclusive or of bit 4 of operands and result (R103). -/
theorem computedAF_eq (f : FlagState) : computedAF f =
    if f.lastOp1.getLsbD 4 ^^ f.lastOp2.getLsbD 4 ^^ f.lastAddResult.getLsbD 4 then 0x10 else 0 := by
  have h := BitVec.and_twoPow (f.lastOp1 ^^^ f.lastOp2 ^^^ f.lastAddResult) 4
  rwa [BitVec.getLsbD_xor, BitVec.getLsbD_xor] at h

end Sys2Proof.Machine
end

section
/-! The stored and the computed path of a flag (40_flags.md R100, R120). -/

namespace Sys2Proof.Machine

/-- Settles O8: `rawFlag` branches on this flag's dirty bit alone, and no formula reads the dirty mask. -/
theorem dirtyBitSelectsStoredOrComputed : Obligations.DirtyBitSelectsStoredOrComputed := by
  intro x f
  refine ⟨fun hclean => if_neg (not_not_intro hclean), fun hdirty => if_pos hdirty, bne_iff_ne, fun d hd => ?_⟩
  have hcomputed : computedFlag x { f with flagsChanged := d } = computedFlag x f := by cases x <;> rfl
  simp only [rawFlag, hd, hcomputed]

/-- A dirty flag is the computed one (R100). -/
theorem flagVal_of_dirty {x : StatusFlag} {f : FlagState} (h : f.flagsChanged &&& flagMask x ≠ 0) :
    flagVal x f = (computedFlag x f != 0) := by
  obtain ⟨-, hraw, -⟩ := dirtyBitSelectsStoredOrComputed x f
  rw [flagVal, hraw h]

end Sys2Proof.Machine
end

section
/-! The computed parity flag (40_flags.md R102). -/

namespace Sys2Proof.Machine

/-- Whether an odd number of the low `k` bits are 1. -/
def oddOnes {w : Nat} (k : Nat) (v : BitVec w) : Bool := (List.range k).foldr (fun i odd => v.getLsbD i ^^ odd) false

/-- A count is odd exactly when the exclusive or of what it counts is true. -/
theorem countP_mod_two {α : Type} (p : α → Bool) (l : List α) :
    l.countP p % 2 = (l.foldr (fun x odd => p x ^^ odd) false).toNat := by
  induction l with
  | nil => rfl
  | cons x l ih =>
    rw [List.countP_cons, Nat.add_mod, ih, List.foldr_cons]
    cases p x <;> cases l.foldr (fun x odd => p x ^^ odd) false <;> rfl

/-- The table constant holds the even parity of every nibble. -/
theorem parityTable_lookup (v : BitVec 4) :
    (((0x9669 : Word) <<< 2) >>> v.toNat) &&& 0x004 = if oddOnes 4 v then 0 else 0x4 := by
  revert v
  decide

/-- The two nibbles of the low byte, folded into one. -/
def foldNibbles (r : Word) : BitVec 4 := (r ^^^ (r >>> 4)).setWidth 4

/-- The index into the table is the folded nibble. -/
theorem toNat_foldNibbles (r : Word) : ((r ^^^ (r >>> 4)) &&& 0xF).toNat = (foldNibbles r).toNat := by
  rw [foldNibbles, BitVec.toNat_setWidth, BitVec.toNat_and]
  exact Nat.and_two_pow_sub_one_eq_mod _ 4

/-- Folding keeps the parity. -/
theorem oddOnes_foldNibbles (r : Word) : oddOnes 4 (foldNibbles r) = oddOnes 8 r := by
  simp only [oddOnes, foldNibbles, List.range, List.range.loop, List.foldr, BitVec.getLsbD_setWidth, BitVec.getLsbD_xor,
    BitVec.getLsbD_ushiftRight, Nat.reduceLT, Nat.reduceAdd, decide_true, Bool.true_and]
  simp only [Bool.xor_assoc, Bool.xor_comm, Bool.xor_left_comm]

/-- Settles O16: the table gives the parity of the folded nibble, which is that of the byte. -/
theorem computedParityIsEvenParityOfTheLowByte : Obligations.ComputedParityIsEvenParityOfTheLowByte := by
  intro f
  rw [computedPF, toNat_foldNibbles, parityTable_lookup, oddOnes_foldNibbles, countP_mod_two, ← oddOnes]
  cases oddOnes 8 f.lastResult <;> rfl

end Sys2Proof.Machine
end

section
/-! What the computed flags read of the snapshot (40_flags.md R102, R104, R105, R119). -/

namespace Sys2Proof.Machine

/-- Settles O15, from the two flags as functions of the result. -/
theorem computedZeroAndSignReadTheLowPart : Obligations.ComputedZeroAndSignReadTheLowPart := by
  intro f
  constructor
  · rw [computedZF_eq, b2w_decide]
  · rw [computedSF_eq, signBit_eq_decide_neg, b2w_decide]

/-- Settles O18: CF, OF, SF, ZF and AF read only those bits by their equations, and PF counts only bits of the low byte. -/
theorem computedFlagsAreWidthLocal : Obligations.ComputedFlagsAreWidthLocal := by
  intro f g hsize
  refine ⟨fun h1 h2 hadd => ⟨?_, ?_⟩, fun hres => ?_, fun hlow => ?_, fun hlow => ?_, fun h1 h2 hadd => ?_⟩
  · simp only [computedCF_eq, signBit, ← hsize, h1, h2, hadd]
  · simp only [computedOF_eq, signBit, ← hsize, h1, h2, hadd]
  · simp only [computedSF_eq, signBit, ← hsize, hres]
  · simp only [computedZF_eq, ← hsize, opWidth, hlow]
  · have hbits : ∀ i ∈ List.range 8, f.lastResult.getLsbD i = g.lastResult.getLsbD i :=
      fun i hi => getLsbD_eq_of_lowPart_eq hlow (List.mem_range.1 hi)
    rw [computedParityIsEvenParityOfTheLowByte f, computedParityIsEvenParityOfTheLowByte g,
      List.countP_congr fun i hi => by rw [hbits i hi]]
  · simp only [computedAF_eq, h1, h2, hadd]

end Sys2Proof.Machine
end

section
/-! The computed flags of an addition (40_flags.md R101, R103, R106). -/

namespace Sys2Proof.Machine

/-- Settles O13: the result's bit gives back the carry into the sign bit, so the majority is the carry out of it. -/
theorem computedCarryIsTheCarryOut : Obligations.ComputedCarryIsTheCarryOut := by
  intro f k hsum
  have hmajority : ∀ u v c : Bool, Bool.atLeastTwo u v (!(u ^^ (v ^^ c))) = Bool.atLeastTwo u v c := by decide
  have hn := opSizeBit_lt f.lastOpSize
  rw [computedCF_eq, ← b2w_decide, ← carry_eq_decide_lowPart]
  simp only [signBit]
  rw [getLsbD_of_lowPart_sum hn hsum, BitVec.getLsbD_add hn, hmajority, ← BitVec.carry_succ]
  rfl

/-- Settles O14: the operands' sign bits agree and the sum's differs, which is signed overflow at the operand width. -/
theorem computedOverflowIsSignedOverflow : Obligations.ComputedOverflowIsSignedOverflow := by
  intro f k hsum
  have hn := opSizeBit_lt f.lastOpSize
  have hover : ∀ u v r : Bool, ((u ^^ r) && (v ^^ r)) = (u == v && !r == u) := by decide
  have hr : signBit f.lastOpSize f.lastAddResult = signBit f.lastOpSize (f.lastOp1 + f.lastOp2) :=
    getLsbD_of_lowPart_sum hn hsum
  rw [computedOF_eq, hr, ← b2w_decide, hover]
  simp only [← msb_setWidth_opWidth]
  rw [BitVec.setWidth_add (i := opWidth f.lastOpSize) _ _ hn, ← BitVec.saddOverflow_eq, Bool.decide_or, Bool.or_comm]
  rfl

/-- Settles O17: bit 4 of operands and result gives back the carry into that bit. -/
theorem computedAdjustIsTheNibbleCarry : Obligations.ComputedAdjustIsTheNibbleCarry := by
  intro f hsum
  have hcarry : ∀ u v c : Bool, (u ^^ v ^^ (u ^^ (v ^^ c))) = c := by decide
  rw [computedAF_eq, getLsbD_of_lowPart_sum (by decide) hsum, BitVec.getLsbD_add (by decide), hcarry,
    carry_eq_decide_lowPart]
  simp only [decide_eq_true_iff]
  rfl

end Sys2Proof.Machine
end

section
/-! The conditions after a compare snapshot (40_flags.md section 5). -/

namespace Sys2Proof.Machine

/-- SNAP_WRITE with a legal operand size loads the snapshot and drives 0 (R117). -/
theorem exec_snap_legal {e : Word} {n : OpSize} (h : opSizeOf e = some n) (a b c d f : Word) (s : State) :
    exec (.snap a b c d e f) s = .next (driveResult 0 { s with fl := loadSnapshot a b c d n f s.fl }) := by
  change execSnap a b c d e f s = _
  rw [execSnap, h]
  rfl

/-- The snapshot of a compare, with all flags computed. -/
def compareFlags (a b : Word) (n : OpSize) (f : FlagState) : FlagState := loadSnapshot (a - b) b (a - b) a n 0x8D5 f

theorem flagVal_compareFlags (x : StatusFlag) (a b : Word) (n : OpSize) (f : FlagState) :
    flagVal x (compareFlags a b n f) = (computedFlag x (compareFlags a b n f) != 0) := by
  have hdirty : (0x8D5 &&& statusMask) &&& flagMask x ≠ 0 := by cases x <;> decide
  exact flagVal_of_dirty hdirty

/-- At the operand width, `a` is the sum of `a - b` and `b`. -/
theorem lowPart_sub_add {k : Nat} (hk : k ≤ 32) (a b : Word) :
    lowPart k a = (lowPart k (a - b) + lowPart k b) % 2 ^ k := by
  rw [← lowPart_add hk, BitVec.sub_add_cancel]

/-- A subtraction at the operand width borrows at most once. -/
theorem lowPart_sub_cases {k : Nat} (hk : k ≤ 32) (a b : Word) :
    lowPart k (a - b) + lowPart k b = lowPart k a ∨ lowPart k (a - b) + lowPart k b = lowPart k a + 2 ^ k := by
  have hsum := lowPart_sub_add hk a b
  rw [Nat.add_mod_eq_ite, Nat.mod_eq_of_lt (lowPart_lt k _), Nat.mod_eq_of_lt (lowPart_lt k _)] at hsum
  split at hsum <;> omega

/-- Adding back what was taken away carries exactly when taking it away borrowed. -/
theorem lowPart_sub_carry_iff {k : Nat} (hk : k ≤ 32) (a b : Word) :
    2 ^ k ≤ lowPart k (a - b) + lowPart k b ↔ lowPart k a < lowPart k b := by
  have hdiff := lowPart_lt k (a - b)
  have ha := lowPart_lt k a
  rcases lowPart_sub_cases hk a b with h | h <;> omega

theorem lowPart_sub_eq_zero_iff {k : Nat} (hk : k ≤ 32) (a b : Word) :
    lowPart k (a - b) = 0 ↔ lowPart k a = lowPart k b := by
  have hdiff := lowPart_lt k (a - b)
  have hb := lowPart_lt k b
  rcases lowPart_sub_cases hk a b with h | h <;> omega

theorem flagVal_cf_compareFlags (a b : Word) (n : OpSize) (f : FlagState) :
    flagVal .cf (compareFlags a b n f) = decide (lowPart (opWidth n) a < lowPart (opWidth n) b) := by
  have hk : opWidth n ≤ 32 := opSizeBit_lt n
  have h := computedCarryIsTheCarryOut (compareFlags a b n f) (lowPart_sub_add hk a b)
  rw [flagVal_compareFlags, computedFlag, h, ← b2w_decide, b2w_ne_zero]
  exact decide_eq_decide.2 (lowPart_sub_carry_iff hk a b)

theorem flagVal_zf_compareFlags (a b : Word) (n : OpSize) (f : FlagState) :
    flagVal .zf (compareFlags a b n f) = decide (lowPart (opWidth n) a = lowPart (opWidth n) b) := by
  rw [flagVal_compareFlags, computedFlag, computedZF_eq, b2w_ne_zero]
  exact decide_eq_decide.2 (lowPart_sub_eq_zero_iff (opSizeBit_lt n) a b)

/-- The signed comparison is the unsigned one, inverted when the signs differ. -/
theorem decide_signedPart_lt (n : OpSize) (a b : Word) : decide (signedPart (opWidth n) a < signedPart (opWidth n) b) =
    ((signBit n a != signBit n b) ^^ decide (lowPart (opWidth n) a < lowPart (opWidth n) b)) := by
  rw [← msb_setWidth_opWidth, ← msb_setWidth_opWidth, lowPart_eq_toNat, lowPart_eq_toNat]
  exact BitVec.slt_eq_ult

theorem signedPart_eq_iff (k : Nat) (a b : Word) : signedPart k a = signedPart k b ↔ lowPart k a = lowPart k b := by
  rw [lowPart_eq_toNat, lowPart_eq_toNat]
  exact BitVec.toInt_inj.trans BitVec.toNat_inj.symm

/-- The sign of the difference, corrected by its overflow, is the signed comparison: a fact about the three sign bits, once CF stands
for the unsigned comparison. -/
theorem flagVal_sf_bne_of_compareFlags (a b : Word) (n : OpSize) (f : FlagState) :
    (flagVal .sf (compareFlags a b n f) != flagVal .of (compareFlags a b n f)) =
      decide (signedPart (opWidth n) a < signedPart (opWidth n) b) := by
  have hcf := flagVal_cf_compareFlags a b n f
  rw [decide_signedPart_lt, ← hcf]
  simp only [flagVal_compareFlags, computedFlag, computedCF_eq, computedSF_eq, computedOF_eq, b2w_ne_zero]
  simp only [compareFlags, loadSnapshot]
  generalize signBit n (a - b) = d, signBit n a = x, signBit n b = y
  revert d x y
  decide

/-- Settles O19: CF is the borrow of `a - b`, ZF tests it for zero, and the sign corrected by the overflow is the signed comparison;
BE and LE add equality to B and L. -/
theorem compareSnapshotGivesTheComparisons : Obligations.CompareSnapshotGivesTheComparisons := by
  intro s a b e n hsize
  refine ⟨_, exec_snap_legal hsize _ _ _ _ _ s, ?_⟩
  change condHolds .b (compareFlags a b n s.fl) = _ ∧ condHolds .z (compareFlags a b n s.fl) = _ ∧
    condHolds .be (compareFlags a b n s.fl) = _ ∧ condHolds .l (compareFlags a b n s.fl) = _ ∧
    condHolds .le (compareFlags a b n s.fl) = _
  simp only [condHolds, flagVal_cf_compareFlags, flagVal_zf_compareFlags, flagVal_sf_bne_of_compareFlags, ← Bool.decide_or,
    Nat.le_iff_lt_or_eq, Int.le_iff_eq_or_lt, signedPart_eq_iff, and_self]

end Sys2Proof.Machine
end

section
/-! The write ports (40_flags.md R117, R118). -/

namespace Sys2Proof.Machine

/-- Settles O20: the three legal values of E are the bit indices of the operand sizes. -/
theorem snapWriteLoadsTheSnapshotOrIsRefused : Obligations.SnapWriteLoadsTheSnapshotOrIsRefused := by
  intro s a b c d e f
  refine ⟨rfl, fun n he => ?_, ⟨rfl, rfl, rfl⟩, fun h7 h15 h31 => ?_⟩
  · have hsize : opSizeOf e = some n := by
      subst he
      cases n <;> rfl
    exact exec_snap_legal hsize a b c d f s
  · have hsize : opSizeOf e = none := by simp only [opSizeOf, h7, h15, h31, if_false]
    change execSnap a b c d e f s = _
    rw [execSnap, hsize]

/-- Settles O21: `storeFlags` is this update. -/
theorem flagsWriteStoresTheMaskedStatusBits : Obligations.FlagsWriteStoresTheMaskedStatusBits :=
  fun _ _ _ => ⟨rfl, rfl⟩

end Sys2Proof.Machine
end

section
/-! The answers of the flag reads (40_flags.md R100 to R116). -/

namespace Sys2Proof.Machine

/-- What a flag read answers, from the flag state alone; 0 for the other commands. -/
def flagAnswer : Instr → FlagState → Word
  | .getcf => rawFlag .cf
  | .getpf => rawFlag .pf
  | .getaf => rawFlag .af
  | .getzf => rawFlag .zf
  | .getsf => rawFlag .sf
  | .getof => rawFlag .of
  | .testO => b2w ∘ condHolds .o
  | .testB => b2w ∘ condHolds .b
  | .testZ => b2w ∘ condHolds .z
  | .testS => b2w ∘ condHolds .s
  | .testP => b2w ∘ condHolds .p
  | .testBe => b2w ∘ condHolds .be
  | .testL => b2w ∘ condHolds .l
  | .testLe => b2w ∘ condHolds .le
  | .evalcc cc => b2w ∘ evalCondition cc
  | _ => fun _ => 0

theorem exec_flagRead_eq {i : Instr} (h : isFlagRead i = true) (s : State) :
    exec i s = .next (driveResult (flagAnswer i s.fl) s) := by
  cases i with
  | getcf | getpf | getaf | getzf | getsf | getof | testO | testB | testZ | testS | testP | testBe | testL | testLe | evalcc =>
    rfl
  | _ => cases h

/-- Settles O9: the answer of each getter is its raw flag. -/
theorem gettersAnswerTheRawFlag : Obligations.GettersAnswerTheRawFlag := by
  intro s
  have h {i : Instr} (hi : isFlagRead i = true) := exec_flagRead_eq hi s
  exact ⟨⟨rfl, h rfl⟩, ⟨rfl, h rfl⟩, ⟨rfl, h rfl⟩, ⟨rfl, h rfl⟩, ⟨rfl, h rfl⟩, ⟨rfl, h rfl⟩⟩

/-- Settles O10: the answer of each predicate is its condition. -/
theorem predicatesAnswerTheirFormulas : Obligations.PredicatesAnswerTheirFormulas := by
  intro s
  have h {i : Instr} (hi : isFlagRead i = true) := exec_flagRead_eq hi s
  exact ⟨⟨rfl, h rfl⟩, ⟨rfl, h rfl⟩, ⟨rfl, h rfl⟩, ⟨rfl, h rfl⟩, ⟨rfl, h rfl⟩, ⟨rfl, h rfl⟩, ⟨rfl, h rfl⟩, ⟨rfl, h rfl⟩⟩

/-- Settles O12: only the response is driven, with a function of the flag state. -/
theorem flagReadsArePure : Obligations.FlagReadsArePure := by
  intro i hi
  refine ⟨fun s => ⟨_, exec_flagRead_eq hi s⟩, fun s s' t t' hfl ht ht' => ?_⟩
  cases (exec_flagRead_eq hi s).symm.trans ht
  cases (exec_flagRead_eq hi s').symm.trans ht'
  simp only [driveResult_response, hfl]

end Sys2Proof.Machine
end

section
/-! The stack pointer after an adjustment, and the bytes of the values that the stack commands move (41_stack.md R140 to R143;
20_memory.md R62). -/

namespace Sys2Proof.Machine

/-- An adjustment is one write of ESP, by the mode's rule (R142). -/
theorem adjust_eq (amt : Word) (s : State) : adjust amt s = { s with
    gpr := s.gpr.set 4 (
      if s.stackSize32 then s.gpr[4] + amt
      else s.gpr[4].extractLsb' 16 16 ++ (s.gpr[4].extractLsb' 0 16 + amt.extractLsb' 0 16)) } := by
  unfold adjust
  split
  · rfl
  · rfl

/-- The registers after an adjustment depend on the registers and the stack mode alone. -/
theorem adjust_gpr_congr {s t : State} (hm : t.stackSize32 = s.stackSize32) (hg : t.gpr = s.gpr) (amt : Word) :
    (adjust amt t).gpr = (adjust amt s).gpr := by
  rw [adjust_eq, adjust_eq, hm, hg]

/-- Adjusting by an amount undoes adjusting by its opposite. -/
theorem adjust_gpr_cancel {s t : State} {amt : Word} (hm : t.stackSize32 = s.stackSize32)
    (hg : t.gpr = (adjust (-amt) s).gpr) : (adjust amt t).gpr = s.gpr := by
  rw [adjust_gpr_congr (s := adjust (-amt) s) (by simpa using hm) hg, adjust_adjust, neg_add_cancel]
  exact congrArg State.gpr (adjust_zero s)

/-- The bytes of a value, lowest first (20_memory.md R62). -/
theorem toBytes_eq_map {w : Nat} (n : Nat) (v : BitVec w) :
    toBytes n v = (List.range n).map fun k => v.extractLsb' (8 * k) 8 :=
  List.ext_getElem (by simp) fun k hk _ => by simp [toBytes_getElem]

/-- The bytes of a 16-bit register are the low bytes of the register (10_state.md R22). -/
theorem toBytes_gpr16 (s : State) (i : Fin 8) :
    toBytes 2 (gpr16 s i) = [s.gpr[i].extractLsb' 0 8, s.gpr[i].extractLsb' 8 8] := by
  simp [toBytes_eq_map, List.range_succ, gpr16]

/-- The value of a run of bytes is made of the values of its parts, the first part the low one (20_memory.md R62). -/
theorem fromBytes_append (w : Nat) (bs cs : List Byte) :
    fromBytes (w + 8 * bs.length) (bs ++ cs) = fromBytes w cs ++ fromBytes (8 * bs.length) bs := by
  apply BitVec.eq_of_getLsbD_eq
  intro i hi
  rw [fromBytes_getLsbD _ _ i hi, BitVec.getLsbD_append]
  split
  · next hlow => rw [fromBytes_getLsbD _ _ i hlow, List.getD_append _ _ _ _ (by omega)]
  · next hhigh =>
    have hbyte : (i - 8 * bs.length) / 8 = i / 8 - bs.length := by omega
    have hbit : (i - 8 * bs.length) % 8 = i % 8 := by omega
    rw [fromBytes_getLsbD _ _ _ (by omega), List.getD_append_right _ _ _ _ (by omega), hbyte, hbit]

theorem fromBytes_one (b : Byte) : fromBytes 8 [b] = b := by simp [fromBytes]

theorem fromBytes_two (b₀ b₁ : Byte) : fromBytes 16 [b₀, b₁] = b₁ ++ b₀ := by
  have h := fromBytes_append 8 [b₀] [b₁]
  rwa [fromBytes_one, show fromBytes (8 * [b₀].length) [b₀] = b₀ from fromBytes_one b₀] at h

theorem fromBytes_four (b₀ b₁ b₂ b₃ : Byte) : fromBytes 32 [b₀, b₁, b₂, b₃] = (b₃ ++ b₂) ++ (b₁ ++ b₀) := by
  have h := fromBytes_append 16 [b₀, b₁] [b₂, b₃]
  rwa [fromBytes_two, show fromBytes (8 * [b₀, b₁].length) [b₀, b₁] = b₁ ++ b₀ from fromBytes_two b₀ b₁] at h

theorem fromBytes_loadBytes_four (m : Memory) (a : Word) : fromBytes 32 (loadBytes m a 4) =
    memGet m (a + 3).toNat ++ memGet m (a + 2).toNat ++ (memGet m (a + 1).toNat ++ memGet m a.toNat) := by
  rw [← fromBytes_four]
  simp [loadBytes, BitVec.add_assoc]

/-- Settles O24: the answer is `ea`. -/
theorem stackEaAnswersTheAddress : Obligations.StackEaAnswersTheAddress :=
  fun _ _ => ⟨rfl, rfl⟩

/-- Settles O25: the state that answers is the adjusted one. -/
theorem stackAdjustMovesThePointer : Obligations.StackAdjustMovesThePointer :=
  fun s amt => ⟨rfl, congrArg (Host.Outcome.next ∘ driveResult 0) (adjust_eq amt s)⟩

end Sys2Proof.Machine
end

section
/-! Push and pop of one value (41_stack.md R144 to R147, R150). -/

namespace Sys2Proof.Machine

/-- What the command of a push does on writable bytes: they are stored below the pointer and the pointer is committed
(R144, R145). -/
theorem push_ok {w : Nat} (n : Nat) (hn : n ≤ 2 ^ 32) (v : BitVec w) (s : State)
    (h : AllWritable s (ea s (-(BitVec.ofNat 32 n))) n) :
    ∃ t, finishNoResult (pushValue n v s) = .next t ∧ t.response = .ok 0 ∧
      t.gpr = (adjust (-(BitVec.ofNat 32 n)) s).gpr ∧
      (∀ k, k < n → memGet t.mem (ea s (-(BitVec.ofNat 32 n)) + BitVec.ofNat 32 k).toNat = v.extractLsb' (8 * k) 8) ∧
      SameOutside (ea s (-(BitVec.ofNat 32 n))) n s t ∧ t.fl = s.fl ∧ t.fx = s.fx ∧ SameInputs s t ∧ t.draws = s.draws ∧
      t.bus = s.bus ++ [.write (ea s (-(BitVec.ofNat 32 n))) (toBytes n v)] := by
  have hlen : (toBytes n v).length = n := toBytes_length n v
  rw [pushValue_ok n v s h, adjust_eq, adjust_eq]
  refine ⟨_, rfl, rfl, rfl, fun k hk => ?_, fun x hx => ?_, rfl, rfl, ⟨rfl, rfl, rfl, rfl, rfl, rfl⟩, rfl, rfl⟩
  · exact (memGet_storeBytes_inside _ _ _ (by omega) k (by omega)).trans (toBytes_getElem n v k (by omega))
  · exact memGet_storeBytes_outside _ _ _ x (by rwa [hlen])

/-- The command of a push on bytes that are not all writable: a write fault at one of them, with nothing changed but the records
(R144, R145). -/
theorem push_fault {w : Nat} (n : Nat) (v : BitVec w) (s : State)
    (h : ¬ AllWritable s (ea s (-(BitVec.ofNat 32 n))) n) :
    ∃ x ∈ addrsFrom (ea s (-(BitVec.ofNat 32 n))) n, byteWritable s x = false ∧
      finishNoResult (pushValue n v s) = .next { s with
        response := .fault (.memFault x .write)
        bus := s.bus ++ [.write (ea s (-(BitVec.ofNat 32 n))) (toBytes n v)], draws := s.draws + 1 } := by
  obtain ⟨x, hx, hdenied, hraised⟩ := pushValue_fault n v s h
  exact ⟨x, hx, hdenied, by rw [hraised]; rfl⟩

/-- Settles O26: the bytes of the value are `toBytes 2 v`. -/
theorem push16StoresThenCommits : Obligations.Push16StoresThenCommits := by
  intro s v
  refine ⟨rfl, fun h => ?_, push_fault 2 v s⟩
  obtain ⟨t, hnext, hok, hgpr, hbytes, hframe⟩ := push_ok 2 (by decide) v s h
  exact ⟨t, hnext, hok, hgpr, by simpa using hbytes 0 (by decide), hbytes 1 (by decide), hframe⟩

/-- Settles O27: the bytes of the value are `toBytes 4 v`. -/
theorem push32StoresThenCommits : Obligations.Push32StoresThenCommits :=
  fun s v => ⟨rfl, push_ok 4 (by decide) v s, push_fault 4 v s⟩

/-- A pop of readable bytes goes on with the value they make and commits the pointer; nothing else changes but the record
(R146, R147). -/
theorem popValue_of_readable {w n : Nat} {s : State} {a : Word} {v : BitVec w} (hn : w / 8 = n)
    (ha : s.ssBase + spVal s = a) (hreadable : AllReadable s a n) (hv : fromBytes w (loadBytes s.mem a n) = v) :
    popValue w s = .going v { adjust (BitVec.ofNat 32 n) s with bus := s.bus ++ [.read a n] } := by
  subst hn ha hv
  rw [popValue_ok w s hreadable, adjust_eq, adjust_eq]
  rfl

/-- Settles O28: the two bytes read make the value, the second one its high half. -/
theorem pop16ReadsThenCommits : Obligations.Pop16ReadsThenCommits := by
  intro s
  refine ⟨rfl, fun h => ?_, fun h => ?_⟩
  · exact congrArg (fun p => finish (andThen p _)) (popValue_of_readable (w := 16) rfl rfl h (fromBytes_two _ _))
  · obtain ⟨x, hx, hdenied, hraised⟩ := popValue_fault 16 s h
    exact ⟨x, hx, hdenied, congrArg (fun p => finish (andThen p _)) hraised⟩

/-- Settles O29: the four bytes read make the value. -/
theorem pop32ReadsThenCommits : Obligations.Pop32ReadsThenCommits := by
  intro s
  refine ⟨rfl, fun h => ?_, fun h => ?_⟩
  · exact congrArg finish (popValue_of_readable (w := 32) rfl rfl h (fromBytes_loadBytes_four s.mem _))
  · obtain ⟨x, hx, hdenied, hraised⟩ := popValue_fault 32 s h
    exact ⟨x, hx, hdenied, congrArg finish hraised⟩

/-- A pop right after a push of the same width answers the pushed value and takes the pointer back (R150). -/
theorem popValue_after_pushValue {w n : Nat} (hw : w = 8 * n) (hn : n ≤ 2 ^ 32) (v : BitVec w) (s : State)
    (hwritable : AllWritable s (ea s (-(BitVec.ofNat 32 n))) n)
    (hreadable : AllReadable s (ea s (-(BitVec.ofNat 32 n))) n) :
    ∃ t u, pushValue n v s = .going () t ∧ popValue w (driveResult 0 t) = .going v u ∧ u.gpr = s.gpr := by
  have hlen : (toBytes n v).length = n := toBytes_length n v
  refine ⟨_, _, pushValue_ok n v s hwritable,
    popValue_of_readable (n := n) (a := ea s (-(BitVec.ofNat 32 n))) (by omega) ?_ ?_ ?_, ?_⟩
  · rw [← ea_zero]
    exact (ea_adjust _ _ 0).trans (by rw [add_zero]; rfl)
  · exact (AllReadable.congr (s := s) (by simp)).2 hreadable
  · have hload := loadBytes_storeBytes_same (toBytes n v) s.mem (ea s (-(BitVec.ofNat 32 n))) (by omega)
    rw [hlen] at hload
    rw [driveResult_mem, adjust_mem, hload, fromBytes_toBytes n w v hw.le]
  · exact adjust_gpr_cancel (by simp) (by rw [driveResult_gpr, adjust_eq, adjust_eq]; rfl)

/-- Settles O33: the pop reads at the address the push wrote to, and the two adjustments cancel. -/
theorem popUndoesPush : Obligations.PopUndoesPush := by
  intro s v w
  refine ⟨fun hwritable hreadable => ?_, fun hwritable hreadable => ?_⟩
  · obtain ⟨t, u, hpush, hpop, hgpr⟩ := popValue_after_pushValue (n := 2) rfl (by decide) v s hwritable hreadable
    exact ⟨driveResult 0 t, driveResult (v.setWidth 32) u, congrArg finishNoResult hpush,
      congrArg (fun p => finish (andThen p _)) hpop, rfl, hgpr⟩
  · obtain ⟨t, u, hpush, hpop, hgpr⟩ := popValue_after_pushValue (n := 4) rfl (by decide) w s hwritable hreadable
    exact ⟨driveResult 0 t, driveResult w u, congrArg finishNoResult hpush, congrArg finish hpop, rfl, hgpr⟩

end Sys2Proof.Machine
end

section
/-! A run of pushes, and the two forms of PUSHA (41_stack.md R148, R149; 70_reset_and_hazards.md R235). -/

namespace Sys2Proof.Machine

/-! ### The slots -/

/-- Two runs of `n` bytes have no byte in common when their offsets lie `n` or more apart, within one turn of a 16-bit pointer. -/
theorem ea_runs_disjoint (s : State) (off : Word) {n d : Nat} (hd : n ≤ d) (hturn : d + n ≤ 2 ^ 16) {x : Word}
    (hx : x ∈ addrsFrom (ea s off) n) : x ∉ addrsFrom (ea s (off - BitVec.ofNat 32 d)) n := by
  obtain ⟨i, hi, rfl⟩ := (mem_addrsFrom _ _ _).1 hx
  intro hmem
  obtain ⟨j, hj, heq⟩ := (mem_addrsFrom _ _ _).1 hmem
  unfold ea at heq
  split at heq
  · have hdistance : BitVec.ofNat 32 d + BitVec.ofNat 32 i = BitVec.ofNat 32 j := by linear_combination heq
    have hnat := congrArg BitVec.toNat hdistance
    simp only [BitVec.toNat_add, BitVec.toNat_ofNat] at hnat
    omega
  · have hlow : (off - BitVec.ofNat 32 d).extractLsb' 0 16 = off.extractLsb' 0 16 - BitVec.ofNat 16 d := by
      apply BitVec.eq_of_toNat_eq
      simp only [BitVec.extractLsb'_toNat, BitVec.toNat_sub, BitVec.toNat_ofNat, Nat.shiftRight_zero]
      omega
    rw [hlow, ← add_sub_assoc, add_assoc, add_assoc, add_right_inj] at heq
    have hnat := congrArg BitVec.toNat heq
    simp only [BitVec.toNat_add, BitVec.toNat_setWidth, BitVec.toNat_sub, BitVec.toNat_ofNat] at hnat
    omega

/-- The slots of a run of pushes have no byte in common. -/
theorem pushaSlot_disjoint (s : State) {n i j : Nat} (hij : i < j) (hturn : n * (j + 1) ≤ 2 ^ 16) {x : Word}
    (hx : x ∈ addrsFrom (pushaSlot s n i) n) : x ∉ addrsFrom (pushaSlot s n j) n := by
  obtain ⟨d, rfl⟩ := Nat.exists_eq_add_of_lt hij
  have hoffset : -(BitVec.ofNat 32 (n * (i + d + 1 + 1))) =
      -(BitVec.ofNat 32 (n * (i + 1))) - BitVec.ofNat 32 (n * (d + 1)) := by
    rw [← neg_add', ← BitVec.ofNat_add, ← Nat.mul_add, Nat.add_add_add_comm, ← Nat.add_assoc]
  rw [pushaSlot, hoffset]
  refine ea_runs_disjoint s _ (Nat.le_mul_of_pos_right n d.succ_pos) ?_ hx
  calc n * (d + 1) + n = n * (d + 1 + 1) := rfl
    _ ≤ n * (i + d + 1 + 1) := Nat.mul_le_mul_left n (by omega)
    _ ≤ 2 ^ 16 := hturn

/-- Outside the wrap of R235 a stack address below the pointer is the linear one. -/
theorem ea_neg_of_not_wraps {s : State} {d : Nat} (h : ¬ PushaWraps s d) :
    ea s (-(BitVec.ofNat 32 d)) = s.ssBase + spVal s - BitVec.ofNat 32 d := by
  unfold ea spVal
  split
  · exact (sub_eq_add_neg _ _).symm
  · next hmode =>
    have hd : d ≤ (gpr16 s espIndex).toNat := Nat.not_lt.1 fun hlt => h ⟨by simpa using hmode, hlt⟩
    rw [add_sub_assoc, add_right_inj]
    apply BitVec.eq_of_toNat_eq
    simp only [BitVec.toNat_setWidth, BitVec.toNat_add, BitVec.toNat_sub, BitVec.toNat_neg, BitVec.toNat_ofNat,
      BitVec.extractLsb'_toNat, Nat.shiftRight_zero]
    omega

/-- Outside the wrap of R235 the slots lie in the checked block. -/
theorem pushaSlot_in_block {s : State} {n count : Nat} (h : ¬ PushaWraps s (n * count)) {j : Nat} (hj : j < count) :
    ∀ x ∈ addrsFrom (pushaSlot s n j) n, x ∈ addrsFrom (ea s (-(BitVec.ofNat 32 (n * count)))) (n * count) := by
  obtain ⟨d, rfl⟩ := Nat.exists_eq_add_of_lt hj
  have hsplit : n * (j + d + 1) = n * (j + 1) + n * d := by ring
  have hslot : ¬ PushaWraps s (n * (j + 1)) := fun ⟨hmode, hlt⟩ => h ⟨hmode, by omega⟩
  have haddr : pushaSlot s n j = ea s (-(BitVec.ofNat 32 (n * (j + d + 1)))) + BitVec.ofNat 32 (n * d) := by
    rw [pushaSlot, ea_neg_of_not_wraps hslot, ea_neg_of_not_wraps h, hsplit, BitVec.ofNat_add]
    ring
  rw [haddr]
  exact addrsFrom_sub _ (n * d) n _ (by rw [hsplit, Nat.mul_succ]; omega)

/-! ### A run of pushes -/

/-- What the first `k` pushes of a run leave: their values in their slots, every other byte as before, the pointer at the
last slot. -/
structure Pushed {w : Nat} (n : Nat) (vs : List (BitVec w)) (k : Nat) (s t : State) : Prop where
  gpr : t.gpr = (adjust (-(BitVec.ofNat 32 (n * k))) s).gpr
  slots : ∀ (j : Nat) (h : j < vs.length), j < k → loadBytes t.mem (pushaSlot s n j) n = toBytes n vs[j]
  others : ∀ x : Word, ¬ InPushaSlots s n k x → memGet t.mem x.toNat = memGet s.mem x.toNat
  fl : t.fl = s.fl
  fx : t.fx = s.fx
  inputs : SameInputs s t

section Pushes

variable {w n k : Nat} {vs : List (BitVec w)} {s t : State}

/-- Before the first push nothing is done. -/
theorem Pushed.zero : Pushed n vs 0 s s where
  gpr := by
    rw [Nat.mul_zero]
    exact (congrArg State.gpr (adjust_zero s)).symm
  slots _ _ h := absurd h (Nat.not_lt_zero _)
  others _ _ := rfl
  fl := rfl
  fx := rfl
  inputs := .refl s

/-- A step that writes the model's records only changes nothing of this. -/
theorem Pushed.of_writesNothing {u : State} (h : Pushed n vs k s t) (hw : WritesOnly {} t u) : Pushed n vs k s u where
  gpr := (hw.gpr rfl).trans h.gpr
  slots j hj hlt := by rw [hw.mem rfl, h.slots j hj hlt]
  others x hx := by rw [hw.mem rfl, h.others x hx]
  fl := (hw.fl rfl).trans h.fl
  fx := (hw.fx rfl).trans h.fx
  inputs := h.inputs.trans hw.inputs

/-- The next push of a run writes the next slot. -/
theorem Pushed.ea_next (h : Pushed n vs k s t) : ea t (-(BitVec.ofNat 32 n)) = pushaSlot s n k := by
  have hoffset : -(BitVec.ofNat 32 (n * k)) + -(BitVec.ofNat 32 n) = -(BitVec.ofNat 32 (n * (k + 1))) := by
    rw [← neg_add, ← BitVec.ofNat_add, Nat.mul_succ]
  rw [ea_congr (s := adjust (-(BitVec.ofNat 32 (n * k))) s) (by simpa using h.inputs.stackSize32)
    (by simpa using h.inputs.ssBase) (by rw [h.gpr]), ea_adjust, hoffset, pushaSlot]

theorem Pushed.writable_next (h : Pushed n vs k s t) :
    AllWritable t (ea t (-(BitVec.ofNat 32 n))) n ↔ AllWritable s (pushaSlot s n k) n := by
  rw [h.ea_next, AllWritable.congr h.inputs.unwritable]

/-- The next push of a run: its slot takes the value, and the slots before it keep theirs. -/
theorem Pushed.succ (h : Pushed n vs k s t) (hk : k < vs.length) (hturn : n * vs.length ≤ 2 ^ 16) :
    Pushed n vs (k + 1) s (adjust (-(BitVec.ofNat 32 n)) { record (.write (pushaSlot s n k) (toBytes n vs[k])) t with
      mem := storeBytes t.mem (pushaSlot s n k) (toBytes n vs[k]) }) where
  gpr := by
    have hamount : -(BitVec.ofNat 32 (n * (k + 1))) = -(BitVec.ofNat 32 (n * k)) + -(BitVec.ofNat 32 n) := by
      rw [← neg_add, ← BitVec.ofNat_add, Nat.mul_succ]
    rw [hamount, ← adjust_adjust]
    refine adjust_gpr_congr ?_ ?_ _
    · simpa using h.inputs.stackSize32
    · exact h.gpr
  slots j hj hlt := by
    have hlen : (toBytes n vs[k]).length = n := toBytes_length n vs[k]
    rw [adjust_mem]
    rcases Nat.lt_succ_iff_lt_or_eq.1 hlt with hbefore | rfl
    · have hslot : n * (k + 1) ≤ 2 ^ 16 := (Nat.mul_le_mul_left n hk).trans hturn
      rw [loadBytes_storeBytes_disjoint n _ _ _ _ fun x hx => by rw [hlen]; exact pushaSlot_disjoint s hbefore hslot hx]
      exact h.slots j hj hbefore
    · have hn : n ≤ n * vs.length := Nat.le_mul_of_pos_right n (by omega)
      have hload := loadBytes_storeBytes_same (toBytes n vs[j]) t.mem (pushaSlot s n j) (by omega)
      rwa [hlen] at hload
  others x hx := by
    have hlast : x ∉ addrsFrom (pushaSlot s n k) (toBytes n vs[k]).length := fun hmem =>
      hx ⟨k, k.lt_succ_self, by simpa using hmem⟩
    have hbefore : ¬ InPushaSlots s n k x := fun ⟨j, hj, hmem⟩ => hx ⟨j, by omega, hmem⟩
    rw [adjust_mem, memGet_storeBytes_outside _ _ _ x hlast, h.others x hbefore]
  fl := by simpa using h.fl
  fx := by simpa using h.fx
  inputs := h.inputs.trans ⟨by simp, by simp, by simp, by simp, by simp, by simp⟩

/-- As long as the slots are writable the pushes of a run go on: after the first `k` of them the rest remains. -/
theorem pushValues_go_on (h : Pushed n vs 0 s t) (hturn : n * vs.length ≤ 2 ^ 16) (hk : k ≤ vs.length)
    (hwritable : ∀ j, j < k → AllWritable s (pushaSlot s n j) n) :
    ∃ u, pushValues n vs t = pushValues n (vs.drop k) u ∧ Pushed n vs k s u ∧ u.draws = t.draws := by
  induction k with
  | zero => exact ⟨t, rfl, h, rfl⟩
  | succ k ih =>
    obtain ⟨u, hrun, hu, hdraws⟩ := ih (by omega) fun j hj => hwritable j (by omega)
    refine ⟨_, ?_, hu.succ hk hturn, by simpa using hdraws⟩
    have hpush := pushValue_ok n vs[k] u (hu.writable_next.2 (hwritable k k.lt_succ_self))
    rw [hrun, List.drop_eq_getElem_cons hk, pushValues_cons, hpush, andThen_going, hu.ea_next]

/-- A run with every slot writable is performed whole. -/
theorem pushValues_ok (h : Pushed n vs 0 s t) (hturn : n * vs.length ≤ 2 ^ 16)
    (hwritable : ∀ j, j < vs.length → AllWritable s (pushaSlot s n j) n) :
    ∃ u, pushValues n vs t = .going () u ∧ Pushed n vs vs.length s u ∧ u.draws = t.draws := by
  obtain ⟨u, hrun, hu⟩ := pushValues_go_on h hturn le_rfl hwritable
  exact ⟨u, by rw [hrun, List.drop_length]; rfl, hu⟩

/-- A run stops with a write fault at the first slot that is not writable, the pushes before it performed. -/
theorem pushValues_fault (h : Pushed n vs 0 s t) (hturn : n * vs.length ≤ 2 ^ 16) (hk : k < vs.length)
    (hwritable : ∀ j, j < k → AllWritable s (pushaSlot s n j) n) (hdenied : ¬ AllWritable s (pushaSlot s n k) n) :
    ∃ u, ∃ x ∈ addrsFrom (pushaSlot s n k) n, byteWritable s x = false ∧
      pushValues n vs t = .raised (.memFault x .write) u ∧ Pushed n vs k s u := by
  obtain ⟨u, hrun, hu, -⟩ := pushValues_go_on h hturn hk.le hwritable
  obtain ⟨x, hx, hbyte, hraised⟩ := pushValue_fault n vs[k] u (mt hu.writable_next.1 hdenied)
  rw [hu.ea_next] at hx
  have hbyte' : byteWritable s x = false := by simpa only [byteWritable, hu.inputs.unwritable] using hbyte
  have hstop := congrArg (andThen · fun _ u => pushValues n (vs.drop (k + 1)) u) hraised
  rw [← pushValues_cons, ← List.drop_eq_getElem_cons hk, ← hrun] at hstop
  exact ⟨_, x, hx, hbyte', hstop, hu.of_writesNothing ((WritesOnly.of_record _ u).trans (.of_draw _))⟩

end Pushes

/-! ### PUSHA -/

/-- The command of PUSHA with registers of `n` bytes: the check of the whole block, then the eight pushes (R148, R149). -/
def pushAll {w : Nat} (n : Nat) (reg : Fin 8 → BitVec w) (s : State) : Answer :=
  finishNoResult (andThen (checkWritable (ea s (-(BitVec.ofNat 32 (n * 8)))) (n * 8) s) fun _ t =>
    pushValues n (indices.map reg) t)

theorem exec_pusha16 (s : State) : exec .pusha16 s = pushAll 2 (gpr16 s) s := rfl

theorem exec_pusha32 (s : State) : exec .pusha32 s = pushAll 4 (fun i => s.gpr[i]) s := rfl

theorem registers_getElem {w : Nat} (reg : Fin 8 → BitVec w) (i : Fin 8) : (indices.map reg)[i.val]'i.isLt = reg i := by
  fin_cases i <;> rfl

/-- Push `i` of PUSHA is that of register `i`. -/
theorem Pushed.register {w n k : Nat} {reg : Fin 8 → BitVec w} {s t : State} (h : Pushed n (indices.map reg) k s t)
    (i : Fin 8) (hi : i.val < k) : loadBytes t.mem (pushaSlot s n i.val) n = toBytes n (reg i) := by
  rw [h.slots i.val i.isLt hi, registers_getElem]

section PushAll

variable {w n k : Nat} {reg : Fin 8 → BitVec w} {s : State}

theorem pushAll_ok (hturn : n * 8 ≤ 2 ^ 16) (hblock : AllWritable s (ea s (-(BitVec.ofNat 32 (n * 8)))) (n * 8))
    (hslots : ∀ j, j < 8 → AllWritable s (pushaSlot s n j) n) :
    ∃ t, pushAll n reg s = .next t ∧ t.response = .ok 0 ∧ Pushed n (indices.map reg) 8 s t ∧ t.draws = s.draws := by
  obtain ⟨u, hrun, hu, hdraws⟩ :=
    pushValues_ok (vs := indices.map reg) (Pushed.zero.of_writesNothing (.of_record _ s)) hturn hslots
  refine ⟨driveResult 0 u, ?_, rfl, hu.of_writesNothing (.of_driveResult 0 u), hdraws⟩
  rw [pushAll, checkWritable_ok _ _ s hblock, andThen_going, hrun, finishNoResult_going]

theorem pushAll_checkFault (reg : Fin 8 → BitVec w) (hblock : ¬ AllWritable s (ea s (-(BitVec.ofNat 32 (n * 8)))) (n * 8)) :
    ∃ x ∈ addrsFrom (ea s (-(BitVec.ofNat 32 (n * 8)))) (n * 8), byteWritable s x = false ∧
      pushAll n reg s = .next { s with
        response := .fault (.memFault x .write)
        bus := s.bus ++ [.checkWritable (ea s (-(BitVec.ofNat 32 (n * 8)))) (n * 8)], draws := s.draws + 1 } := by
  obtain ⟨x, hx, hbyte, hraised⟩ := checkWritable_fault _ _ s hblock
  exact ⟨x, hx, hbyte, by rw [pushAll, hraised]; rfl⟩

/-- A slot that fails after a passed check (R235): the pushes before it are performed. -/
theorem pushAll_slotFault (hturn : n * 8 ≤ 2 ^ 16) (hk : k < 8)
    (hblock : AllWritable s (ea s (-(BitVec.ofNat 32 (n * 8)))) (n * 8))
    (hslots : ∀ j, j < k → AllWritable s (pushaSlot s n j) n) (hdenied : ¬ AllWritable s (pushaSlot s n k) n) :
    ∃ t, ∃ x ∈ addrsFrom (pushaSlot s n k) n, byteWritable s x = false ∧ pushAll n reg s = .next t ∧
      t.response = .fault (.memFault x .write) ∧ Pushed n (indices.map reg) k s t := by
  obtain ⟨u, x, hx, hbyte, hraised, hu⟩ :=
    pushValues_fault (vs := indices.map reg) (Pushed.zero.of_writesNothing (.of_record _ s)) hturn hk hslots hdenied
  refine ⟨takeFault (.memFault x .write) u, x, hx, hbyte, ?_, rfl, hu.of_writesNothing (.of_takeFault _ u)⟩
  rw [pushAll, checkWritable_ok _ _ s hblock, andThen_going, hraised, finishNoResult_raised]

/-- Outside the wrap of R235 a passed check is enough. -/
theorem pushAll_ok_of_not_wraps (reg : Fin 8 → BitVec w) (hturn : n * 8 ≤ 2 ^ 16) (hwraps : ¬ PushaWraps s (n * 8))
    (hblock : AllWritable s (ea s (-(BitVec.ofNat 32 (n * 8)))) (n * 8)) :
    ∃ t, pushAll n reg s = .next t ∧ t.response = .ok 0 := by
  obtain ⟨t, hnext, hok, -⟩ := pushAll_ok (reg := reg) hturn hblock fun j hj => hblock.sub (pushaSlot_in_block hwraps hj)
  exact ⟨t, hnext, hok⟩

end PushAll

/-- Settles O30: the check, then a run of eight pushes, performed whole or up to the first slot that fails. -/
theorem pusha16PushesTheEightRegisters : Obligations.Pusha16PushesTheEightRegisters := by
  intro s
  have hregister {k : Nat} {t : State} (h : Pushed 2 (indices.map (gpr16 s)) k s t) (i : Fin 8) (hi : i.val < k) :
      loadBytes t.mem (pushaSlot s 2 i.val) 2 = [s.gpr[i].extractLsb' 0 8, s.gpr[i].extractLsb' 8 8] :=
    (h.register i hi).trans (toBytes_gpr16 s i)
  refine ⟨rfl, fun hblock hslots => ?_, pushAll_checkFault (n := 2) (gpr16 s), fun k hk hblock hslots hdenied => ?_⟩
  · obtain ⟨t, hnext, hok, ht, hdraws⟩ := pushAll_ok (n := 2) (reg := gpr16 s) (by decide) hblock hslots
    exact ⟨t, hnext, hok, ht.gpr, fun i => hregister ht i i.isLt, ht.others, ht.fl, ht.fx, ht.inputs, hdraws⟩
  · obtain ⟨t, x, hx, hbyte, hnext, hfault, ht⟩ :=
      pushAll_slotFault (n := 2) (reg := gpr16 s) (by decide) hk hblock hslots hdenied
    exact ⟨t, x, hx, hbyte, hnext, hfault, ht.gpr, hregister ht, ht.others, ht.fl, ht.fx, ht.inputs⟩

/-- Settles O31: as PUSHA16, with the whole registers. -/
theorem pusha32PushesTheEightRegisters : Obligations.Pusha32PushesTheEightRegisters := by
  intro s
  let reg (i : Fin 8) : Word := s.gpr[i]
  refine ⟨rfl, fun hblock hslots => ?_, pushAll_checkFault (n := 4) reg, fun k hk hblock hslots hdenied => ?_⟩
  · obtain ⟨t, hnext, hok, ht, hdraws⟩ := pushAll_ok (n := 4) (reg := reg) (by decide) hblock hslots
    exact ⟨t, hnext, hok, ht.gpr, fun i => ht.register i i.isLt, ht.others, ht.fl, ht.fx, ht.inputs, hdraws⟩
  · obtain ⟨t, x, hx, hbyte, hnext, hfault, ht⟩ :=
      pushAll_slotFault (n := 4) (reg := reg) (by decide) hk hblock hslots hdenied
    exact ⟨t, x, hx, hbyte, hnext, hfault, ht.gpr, ht.register, ht.others, ht.fl, ht.fx, ht.inputs⟩

/-- Settles O32: the slots lie in the checked block. -/
theorem pushaCompletesWhenTheBlockDoesNotWrap : Obligations.PushaCompletesWhenTheBlockDoesNotWrap :=
  fun s => ⟨pushAll_ok_of_not_wraps (n := 2) (gpr16 s) (by decide),
    pushAll_ok_of_not_wraps (n := 4) (fun i => s.gpr[i]) (by decide)⟩

end Sys2Proof.Machine
end

section
/-! A stack command neither reads nor writes the flag state and the FPU and SSE state (41_stack.md R151). -/

namespace Sys2Proof.Machine

/-! ### Changes of the state that a command does not see -/

/-- Change the state that a part of a command leaves. -/
def Progress.mapState {α : Type} (g : State → State) : Progress α → Progress α
  | .going v s => .going v (g s)
  | .raised f s => .raised f (g s)

/-- A part of a command that commutes with the change `g` of the state: it neither reads nor writes what `g` replaces. -/
def Blind {α : Type} (g : State → State) (p : State → Progress α) : Prop := ∀ s, p (g s) = (p s).mapState g

/-- The change `g` replaces nothing of memory, the permissions and the model's records, and commutes with their updates. -/
structure OutsideMemory (g : State → State) : Prop where
  mem : ∀ s, (g s).mem = s.mem
  unreadable : ∀ s, (g s).unreadable = s.unreadable
  unwritable : ∀ s, (g s).unwritable = s.unwritable
  draws : ∀ s, (g s).draws = s.draws
  after_record : ∀ c s, record c (g s) = g (record c s)
  after_draw : ∀ s, { g s with draws := s.draws + 1 } = g { s with draws := s.draws + 1 }
  after_setMem : ∀ m s, { g s with mem := m } = g { s with mem := m }
  after_driveResult : ∀ y s, driveResult y (g s) = g (driveResult y s)
  after_takeFault : ∀ f s, takeFault f (g s) = g (takeFault f s)

/-- Besides, it replaces nothing that a stack address is made of (R140 to R142). -/
structure OutsideStack (g : State → State) : Prop extends OutsideMemory g where
  gpr : ∀ s, (g s).gpr = s.gpr
  stackSize32 : ∀ s, (g s).stackSize32 = s.stackSize32
  ssBase : ∀ s, (g s).ssBase = s.ssBase
  after_adjust : ∀ amt s, adjust amt (g s) = g (adjust amt s)

section Parts

variable {g : State → State}

theorem Blind.going {α : Type} (v : α) : Blind g (fun s => .going v s) := fun _ => rfl

theorem Blind.andThen {α β : Type} {p : State → Progress α} {k : α → State → Progress β} (hp : Blind g p)
    (hk : ∀ v, Blind g (k v)) : Blind g (fun s => Machine.andThen (p s) k) := by
  intro s
  simp only [hp s]
  cases p s with
  | going v t => exact hk v t
  | raised f t => rfl

section Memory

variable (hg : OutsideMemory g)
include hg

theorem faultUnlessAll_blind (bad : List Word) (acc : Access) : Blind g (faultUnlessAll bad acc) := by
  intro s
  cases bad with
  | nil => rfl
  | cons x bad => simp only [faultUnlessAll, Progress.mapState, hg.draws, hg.after_draw]

/-- The common start of every primitive: the call is recorded, then its permission is tested (20_memory.md R64, R65). -/
theorem permission_blind (c : BusCall) {bad : State → List Word} (hbad : ∀ s, bad (g s) = bad s) (acc : Access) :
    Blind g (fun s => faultUnlessAll (bad s) acc (record c s)) := by
  intro s
  simp only [hbad, hg.after_record]
  exact faultUnlessAll_blind hg (bad s) acc (record c s)

theorem badReads_blind (a : Word) (n : Nat) (s : State) : badReads (g s) a n = badReads s a n := by
  rw [badReads, hg.unreadable, badReads]

theorem badWrites_blind (a : Word) (n : Nat) (s : State) : badWrites (g s) a n = badWrites s a n := by
  rw [badWrites, hg.unwritable, badWrites]

theorem checkWritable_blind (a : Word) (n : Nat) : Blind g (checkWritable a n) :=
  permission_blind hg _ (badWrites_blind hg a n) .write

theorem readBytes_blind (a : Word) (n : Nat) : Blind g (readBytes a n) :=
  (permission_blind hg _ (badReads_blind hg a n) .read).andThen fun _ s => by rw [hg.mem]; rfl

theorem memRead_blind (w : Nat) (a : Word) : Blind g (memRead w a) :=
  (readBytes_blind hg a (w / 8)).andThen fun bs => .going (fromBytes w bs)

theorem writeBytes_blind (a : Word) (bs : List Byte) : Blind g (writeBytes a bs) :=
  (permission_blind hg _ (badWrites_blind hg a bs.length) .write).andThen fun _ s => by
    rw [hg.mem, hg.after_setMem]; rfl

theorem finish_blind {p : State → Progress Word} (hp : Blind g p) (s : State) :
    finish (p (g s)) = mapNext g (finish (p s)) := by
  rw [hp s]
  cases p s with
  | going y t => exact congrArg Host.Outcome.next (hg.after_driveResult y t)
  | raised f t => exact congrArg Host.Outcome.next (hg.after_takeFault f t)

theorem finishNoResult_blind {p : State → Progress Unit} (hp : Blind g p) (s : State) :
    finishNoResult (p (g s)) = mapNext g (finishNoResult (p s)) :=
  finish_blind hg (hp.andThen fun _ => .going 0) s

end Memory

section Stack

variable (hg : OutsideStack g)
include hg

theorem ea_blind (s : State) (off : Word) : ea (g s) off = ea s off :=
  ea_congr (hg.stackSize32 s) (hg.ssBase s) (by rw [hg.gpr]) off

theorem adjust_blind (amt : Word) {α : Type} (v : α) : Blind g (fun s => .going v (adjust amt s)) :=
  fun s => congrArg (Progress.going v) (hg.after_adjust amt s)

theorem pushValue_blind {w : Nat} (n : Nat) (v : BitVec w) : Blind g (pushValue n v) := by
  intro s
  rw [pushValue, ea_blind hg]
  exact (writeBytes_blind hg.toOutsideMemory _ (toBytes n v)).andThen (fun _ => adjust_blind hg _ ()) s

theorem pushValues_blind {w : Nat} (n : Nat) (vs : List (BitVec w)) : Blind g (pushValues n vs) := by
  induction vs with
  | nil => exact .going ()
  | cons v vs ih => exact (pushValue_blind hg n v).andThen fun _ => ih

theorem popValue_blind (w : Nat) : Blind g (popValue w) := by
  intro s
  rw [popValue, ← ea_zero, ea_blind hg, ea_zero]
  exact (memRead_blind hg.toOutsideMemory w _).andThen (fun v => adjust_blind hg _ v) s

theorem pushAll_blind {w : Nat} (n : Nat) (reg : Fin 8 → BitVec w) (s : State) :
    pushAll n reg (g s) = mapNext g (pushAll n reg s) := by
  have hm := hg.toOutsideMemory
  rw [pushAll, ea_blind hg]
  exact finishNoResult_blind hm ((checkWritable_blind hm _ _).andThen fun _ => pushValues_blind hg n _) s

/-- No stack command sees what lies outside the stack. -/
theorem exec_stackCommand_blind {i : Instr} (hi : isStackCommand i = true) (s : State) :
    exec i (g s) = mapNext g (exec i s) := by
  have hm := hg.toOutsideMemory
  cases i with
  | stackEa off =>
    exact (congrArg (fun y => finish (.going y (g s))) (ea_blind hg s off)).trans (finish_blind hm (.going _) s)
  | stackAdjust amt => exact finish_blind hm (adjust_blind hg amt 0) s
  | push16 v => exact finishNoResult_blind hm (pushValue_blind hg 2 v) s
  | push32 v => exact finishNoResult_blind hm (pushValue_blind hg 4 v) s
  | pop16 => exact finish_blind hm ((popValue_blind hg 16).andThen fun v => .going (v.setWidth 32)) s
  | pop32 => exact finish_blind hm (popValue_blind hg 32) s
  | pusha16 =>
    have hregisters : gpr16 (g s) = gpr16 s := funext fun j => by rw [gpr16, hg.gpr, gpr16]
    rw [exec_pusha16, hregisters, pushAll_blind hg, exec_pusha16]
  | pusha32 => rw [exec_pusha32, hg.gpr, pushAll_blind hg, exec_pusha32]
  | _ => cases hi

end Stack

end Parts

/-! ### R151 -/

/-- The flag state and the FPU and SSE state lie outside the stack. -/
theorem outsideStack_replace (f : FlagState) (x : FxState) : OutsideStack (fun s => { s with fl := f, fx := x }) where
  mem _ := rfl
  unreadable _ := rfl
  unwritable _ := rfl
  draws _ := rfl
  after_record _ _ := rfl
  after_draw _ := rfl
  after_setMem _ _ := rfl
  after_driveResult _ _ := rfl
  after_takeFault _ _ := rfl
  gpr _ := rfl
  stackSize32 _ := rfl
  ssBase _ := rfl
  after_adjust amt s := by rw [adjust_eq, adjust_eq]

theorem writesOf_stackCommand {i : Instr} (hi : isStackCommand i = true) : (writesOf i).fl = false ∧ (writesOf i).fx = false := by
  cases i with
  | stackEa | stackAdjust | push16 | push32 | pop16 | pop32 | pusha16 | pusha32 => exact ⟨rfl, rfl⟩
  | _ => cases hi

/-- Settles O34: stack commands do not see the replaced states, and their entries of the table hold ESP and memory only. -/
theorem stackCommandsTouchOnlyEspAndMemory : Obligations.StackCommandsTouchOnlyEspAndMemory := by
  intro i hi s f x
  refine ⟨exec_stackCommand_blind (outsideStack_replace f x) hi s, fun t hnext => ?_⟩
  have hw := exec_writesOnly hnext
  obtain ⟨hfl, hfx⟩ := writesOf_stackCommand hi
  exact ⟨hw.fl hfl, hw.fx hfx, hw.inputs, hw.otherRegs⟩

end Sys2Proof.Machine
end

section
/-! Runs of fields in memory: what a load sees after the stores of FXSAVE (42_fxstate.md R170 to R174). -/

namespace Sys2Proof.Machine

/-! ### The bytes of a part -/

/-- A byte of a part of a value is a byte of the value. -/
theorem extractLsb'_byte {w k j : Nat} (v : BitVec w) (start : Nat) (hj : j < k) :
    (v.extractLsb' start (8 * k)).extractLsb' (8 * j) 8 = v.extractLsb' (start + 8 * j) 8 := by
  ext i hi
  have hin : 8 * j + i < 8 * k := by omega
  simp [hin, Nat.add_assoc]

/-- The bytes of a value are those of its low part, then those of the rest (20_memory.md R62). -/
theorem toBytes_add {w : Nat} (n k : Nat) (v : BitVec w) :
    toBytes (n + k) v = toBytes n (v.extractLsb' 0 (8 * n)) ++ toBytes k (v.extractLsb' (8 * n) (8 * k)) := by
  rw [toBytes_eq_map, toBytes_eq_map, toBytes_eq_map, List.range_add, List.map_append, List.map_map]
  congr 1
  · refine List.map_congr_left fun j hj => ?_
    rw [extractLsb'_byte v 0 (by simpa using hj), Nat.zero_add]
  · refine List.map_congr_left fun j hj => ?_
    rw [extractLsb'_byte v (8 * n) (by simpa using hj), Function.comp_apply, Nat.mul_add]

/-! ### Stored fields -/

/-- Within one turn of the address space a run at an offset holds the offsets from its own to its end (20_memory.md R63). -/
theorem offset_mem_addrsFrom_iff (a : Word) {d off n : Nat} (hd : d < 2 ^ 32) (hturn : off + n ≤ 2 ^ 32) :
    a + BitVec.ofNat 32 d ∈ addrsFrom (a + BitVec.ofNat 32 off) n ↔ off ≤ d ∧ d < off + n := by
  rw [mem_addrsFrom]
  constructor
  · rintro ⟨k, hk, heq⟩
    rw [BitVec.add_assoc, BitVec.add_right_inj, ← BitVec.ofNat_add] at heq
    have hnat := congrArg BitVec.toNat heq
    simp only [BitVec.toNat_ofNat] at hnat
    omega
  · rintro ⟨hlow, hhigh⟩
    refine ⟨d - off, by omega, ?_⟩
    rw [BitVec.add_assoc, ← BitVec.ofNat_add, Nat.add_sub_cancel' hlow]

/-- A field that ends where another begins, or before, has no byte in common with it. -/
theorem fields_disjoint (a : Word) {off n off' n' : Nat} (hbefore : off + n ≤ off') (hturn : off' + n' ≤ 2 ^ 32) :
    ∀ x ∈ addrsFrom (a + BitVec.ofNat 32 off) n, x ∉ addrsFrom (a + BitVec.ofNat 32 off') n' := by
  intro x hx hx'
  obtain ⟨k, hk, rfl⟩ := (mem_addrsFrom _ _ _).1 hx
  rw [BitVec.add_assoc, ← BitVec.ofNat_add, offset_mem_addrsFrom_iff a (by omega) hturn] at hx'
  omega

/-- Each of a list of stores by rising offsets is found whole after all of them. -/
theorem loadBytes_storeFields {fields : List (Nat × List Byte)} (m : Memory) (a : Word)
    (hrising : fields.Pairwise fun e f => e.1 + e.2.length ≤ f.1) (hturn : ∀ e ∈ fields, e.1 + e.2.length ≤ 2 ^ 32)
    {e : Nat × List Byte} (he : e ∈ fields) :
    loadBytes (storeFields m a fields) (a + BitVec.ofNat 32 e.1) e.2.length = e.2 := by
  induction fields generalizing m with
  | nil => cases he
  | cons first rest ih =>
    obtain ⟨hfirst, hrest⟩ := List.pairwise_cons.1 hrising
    obtain ⟨hfirstTurn, hrestTurn⟩ := List.forall_mem_cons.1 hturn
    rcases List.mem_cons.1 he with rfl | he
    · have hkept : loadBytes (storeFields m a (e :: rest)) (a + BitVec.ofNat 32 e.1) e.2.length =
          loadBytes (storeBytes m (a + BitVec.ofNat 32 e.1) e.2) (a + BitVec.ofNat 32 e.1) e.2.length :=
        loadBytes_congr _ _ _ _ fun x hx => memGet_storeFields_outside rest _ a x fun f hf =>
          fields_disjoint a (hfirst f hf) (hrestTurn f hf) x hx
      rw [hkept, loadBytes_storeBytes_same _ _ _ (by omega)]
    · exact ih _ hrest hrestTurn he

/-! ### The image that FXSAVE stores -/

/-- Where the writes of FXSAVE stand and how long they are (42_fxstate.md R170). -/
def fxExtents : List (Nat × Nat) :=
  [(0, 2), (2, 2), (4, 1), (6, 2), (8, 4), (12, 2), (16, 4), (20, 2), (24, 4), (28, 4)]
  ++ indices.flatMap (fun i => [(32 + 16 * i.val, 8), (40 + 16 * i.val, 2)])
  ++ indices.map (fun k => (160 + 16 * k.val, 16))

theorem fxImage_extents (mask : Word) (x : FxState) :
    (fxImage mask x).map (fun e => (e.1, e.2.length)) = fxExtents := rfl

/-- The writes of FXSAVE go by rising offsets and do not overlap (R170, R174). -/
theorem fxImage_rising (mask : Word) (x : FxState) :
    (fxImage mask x).Pairwise fun e f => e.1 + e.2.length ≤ f.1 := by
  have hextents : fxExtents.Pairwise fun e f => e.1 + e.2 ≤ f.1 := by decide
  rwa [← fxImage_extents mask x, List.pairwise_map] at hextents

/-- The rows marked †: pad bytes in the header, the last six bytes of each slot, and everything above the XMM registers (R170). -/
theorem unlistedOffset_iff (d : Nat) : unlistedOffset d = true ↔
    d = 5 ∨ d = 14 ∨ d = 15 ∨ d = 22 ∨ d = 23 ∨ (32 ≤ d ∧ d < 160 ∧ 10 ≤ (d - 32) % 16) ∨ (288 ≤ d ∧ d < 512) := by
  simp [unlistedOffset, or_assoc, and_assoc]

theorem unlistedOffset_lt {d : Nat} (hd : unlistedOffset d = true) : d < 512 := by
  rw [unlistedOffset_iff] at hd
  omega

/-- No write of FXSAVE covers a byte of the rows marked † (R170). -/
theorem fxExtents_skip_unlisted {d : Nat} (hd : unlistedOffset d = true) :
    ∀ e ∈ fxExtents, ¬ (e.1 ≤ d ∧ d < e.1 + e.2) := by
  rw [unlistedOffset_iff] at hd
  rw [fxExtents, List.forall_mem_append, List.forall_mem_append]
  refine ⟨⟨?header, ?slots⟩, ?xmm⟩
  case header =>
    simp only [List.forall_mem_cons, List.not_mem_nil, false_implies, implies_true, and_true]
    omega
  case slots =>
    intro e he
    obtain ⟨i, -, he⟩ := List.mem_flatMap.1 he
    rcases List.mem_pair.1 he with rfl | rfl
    · dsimp only
      omega
    · dsimp only
      omega
  case xmm =>
    intro e he
    obtain ⟨k, -, rfl⟩ := List.mem_map.1 he
    dsimp only
    omega

theorem mem_indices (i : Fin 8) : i ∈ indices := by
  revert i
  decide

/-- The low 64 bits of logical register ST(i) are written at the start of slot i (R172). -/
theorem significand_mem_fxImage (mask : Word) (x : FxState) (i : Fin 8) :
    (32 + 16 * i.val, toBytes 8 ((logicalST x i).extractLsb' 0 64)) ∈ fxImage mask x :=
  List.mem_append_left _ (List.mem_append_right _ (List.mem_flatMap.2 ⟨i, mem_indices i, by simp⟩))

/-- The high 16 bits of logical register ST(i) are written after its low 64 (R172). -/
theorem signExponent_mem_fxImage (mask : Word) (x : FxState) (i : Fin 8) :
    (40 + 16 * i.val, toBytes 2 ((logicalST x i).extractLsb' 64 16)) ∈ fxImage mask x :=
  List.mem_append_left _ (List.mem_append_right _ (List.mem_flatMap.2 ⟨i, mem_indices i, by simp⟩))

/-- XMM register k is one write (R173). -/
theorem xmm_mem_fxImage (mask : Word) (x : FxState) (k : Fin 8) :
    (160 + 16 * k.val, toBytes 16 x.xmm[k]) ∈ fxImage mask x :=
  List.mem_append_right _ (List.mem_map.2 ⟨k, mem_indices k, rfl⟩)

/-- The high 16 bits of slot i stand eight bytes after its low 64 (R172). -/
theorem signExponent_addr (a : Word) (i : Fin 8) :
    a + BitVec.ofNat 32 (32 + 16 * i.val) + BitVec.ofNat 32 8 = a + BitVec.ofNat 32 (40 + 16 * i.val) := by
  rw [BitVec.add_assoc, ← BitVec.ofNat_add, Nat.add_right_comm]

section Image

variable {mask : Word} {x : FxState} {m : Memory} {a : Word}

/-- After FXSAVE every listed field holds its bytes (R174). That a header field is listed is computed. -/
theorem loadBytes_fxImage {off n w : Nat} {v : BitVec w} (h : (off, toBytes n v) ∈ fxImage mask x := by simp [fxImage]) :
    loadBytes (storeFields m a (fxImage mask x)) (a + BitVec.ofNat 32 off) n = toBytes n v := by
  have hturn : ∀ e ∈ fxImage mask x, e.1 + e.2.length ≤ 2 ^ 32 := fun e he =>
    (fxImage_inside mask x e he).trans (by decide)
  simpa using loadBytes_storeFields m a (fxImage_rising mask x) hturn h

/-- After FXSAVE slot i holds logical register ST(i) (R171, R172). -/
theorem loadBytes_fxImage_slot (i : Fin 8) :
    loadBytes (storeFields m a (fxImage mask x)) (a + BitVec.ofNat 32 (32 + 16 * i.val)) 10 =
      toBytes 10 (logicalST x i) := by
  rw [loadBytes_add 8 2, toBytes_add 8 2, signExponent_addr, loadBytes_fxImage (significand_mem_fxImage mask x i),
    loadBytes_fxImage (signExponent_mem_fxImage mask x i)]

/-- FXSAVE leaves the bytes of the rows marked † alone (R170). -/
theorem memGet_fxImage_unlisted {d : Nat} (hd : unlistedOffset d = true) :
    memGet (storeFields m a (fxImage mask x)) (a + BitVec.ofNat 32 d).toNat =
      memGet m (a + BitVec.ofNat 32 d).toNat := by
  have hd512 : d < 512 := unlistedOffset_lt hd
  have hskip := fxExtents_skip_unlisted hd
  rw [← fxImage_extents mask x, List.forall_mem_map] at hskip
  refine memGet_storeFields_outside _ m a _ fun e he => ?_
  have hinside := fxImage_inside mask x e he
  rw [offset_mem_addrsFrom_iff a (by omega) (by omega)]
  exact hskip e he

/-- FXSAVE leaves every byte outside the 512 alone (R174). -/
theorem memGet_fxImage_outside {y : Word} (hy : y ∉ addrsFrom a 512) :
    memGet (storeFields m a (fxImage mask x)) y.toNat = memGet m y.toNat :=
  memGet_storeFields_outside _ m a y fun e he hmem =>
    hy (addrsFrom_sub a e.1 e.2.length 512 (fxImage_inside mask x e he) y hmem)

end Image

end Sys2Proof.Machine
end

section
/-! FXSAVE: its answer in each case (42_fxstate.md R174, R178). -/

namespace Sys2Proof.Machine

section Answers

variable {s : State} {a : Word}

theorem exec_fxsave : exec (.fxsave a) s = execFxsave a s := rfl

/-- FXSAVE with its checks passed: the image is stored, and nothing else changes but the records (R174). -/
theorem exec_fxsave_ok (halign : AlignOk s a) (hwritable : AllWritable s a 512) :
    exec (.fxsave a) s = .next { s with
      mem := storeFields s.mem a (fxImage s.params.mxcsrMask s.fx)
      bus := s.bus ++ .checkWritable a 512 ::
        (fxImage s.params.mxcsrMask s.fx).map (fun e => .write (a + BitVec.ofNat 32 e.1) e.2)
      response := .ok 0 } := by
  have hfields : ∀ e ∈ fxImage s.params.mxcsrMask s.fx, AllWritable s (a + BitVec.ofNat 32 e.1) e.2.length := fun e he =>
    hwritable.sub (addrsFrom_sub a e.1 e.2.length 512 (fxImage_inside _ _ e he))
  have hstored := writeFields_ok a (fxImage s.params.mxcsrMask s.fx) (record (.checkWritable a 512) s)
    fun e he => (AllWritable.congr rfl).2 (hfields e he)
  rw [exec_fxsave, execFxsave, alignCheck_ok a s halign, andThen_going, checkWritable_ok a 512 s hwritable, andThen_going,
    record_params, record_fx, hstored]
  simp [driveResult, record]

/-- FXSAVE at a misaligned address (R178). -/
theorem exec_fxsave_misaligned (halign : ¬ AlignOk s a) :
    exec (.fxsave a) s = .next { s with response := .fault (.gp 0) } := by
  rw [exec_fxsave, execFxsave, alignCheck_fault a s halign]
  rfl

/-- FXSAVE on bytes that are not all writable (R174). -/
theorem exec_fxsave_denied (halign : AlignOk s a) (hwritable : ¬ AllWritable s a 512) :
    ∃ x ∈ addrsFrom a 512, byteWritable s x = false ∧ exec (.fxsave a) s = .next { s with
      response := .fault (.memFault x .write), bus := s.bus ++ [.checkWritable a 512], draws := s.draws + 1 } := by
  obtain ⟨x, hx, hdenied, hraised⟩ := checkWritable_fault a 512 s hwritable
  refine ⟨x, hx, hdenied, ?_⟩
  rw [exec_fxsave, execFxsave, alignCheck_ok a s halign, andThen_going, hraised]
  rfl

end Answers

/-- Settles O35: each listed field is one of the writes, which do not overlap, and no write covers another byte. -/
theorem fxsaveStoresTheImage : Obligations.FxsaveStoresTheImage := by
  intro s a
  refine ⟨rfl, fun halign hwritable => ⟨_, exec_fxsave_ok halign hwritable, rfl, loadBytes_fxImage,
    loadBytes_fxImage (v := statusWord s.fx), ?stackEmpty, loadBytes_fxImage, loadBytes_fxImage, loadBytes_fxImage,
    loadBytes_fxImage, loadBytes_fxImage, loadBytes_fxImage, loadBytes_fxImage, fun i j hj => ?slots,
    fun k => loadBytes_fxImage (xmm_mem_fxImage _ _ k), fun d => memGet_fxImage_unlisted, fun y => memGet_fxImage_outside,
    ⟨rfl, rfl, rfl, rfl⟩, ⟨rfl, rfl, rfl, rfl, rfl, rfl⟩, rfl⟩, exec_fxsave_misaligned, exec_fxsave_denied⟩
  case stackEmpty =>
    have hbyte : toBytes 1 (~~~s.fx.stackEmpty) = [~~~s.fx.stackEmpty] := by simp [toBytes]
    exact hbyte ▸ loadBytes_fxImage
  case slots =>
    have hslot : j = physSlot s.fx.stackPtr i := Fin.ext hj
    exact hslot ▸ loadBytes_fxImage_slot i

end Sys2Proof.Machine
end

section
/-! FXRSTOR: the state it makes of the bytes it reads, and its answer in each case (42_fxstate.md R175 to R178). -/

namespace Sys2Proof.Machine

/-! ### The fields that were read -/

/-- The bytes that reads at offsets from a base find, each with its offset. -/
def loadFields (m : Memory) (a : Word) (fields : List (Nat × Nat)) : List (Nat × List Byte) :=
  fields.map fun e => (e.1, loadBytes m (a + BitVec.ofNat 32 e.1) e.2)

/-- The bytes read at an offset are found under it, when no two reads share an offset. -/
theorem fieldBytes_loadFields {fields : List (Nat × Nat)} (m : Memory) (a : Word)
    (hdistinct : fields.Pairwise fun e f => e.1 ≠ f.1) {off n : Nat} (h : (off, n) ∈ fields) :
    fieldBytes off (loadFields m a fields) = loadBytes m (a + BitVec.ofNat 32 off) n := by
  induction fields with
  | nil => cases h
  | cons first rest ih =>
    obtain ⟨hfirst, hrest⟩ := List.pairwise_cons.1 hdistinct
    rcases List.mem_cons.1 h with rfl | h
    · exact if_pos rfl
    · exact (if_neg (hfirst _ h)).trans (ih hrest h)

/-- The value of a field of the image at `a` (R170). -/
def imageField (m : Memory) (a : Word) (w off : Nat) : BitVec w :=
  fromBytes w (loadBytes m (a + BitVec.ofNat 32 off) (w / 8))

section Fields

variable {m : Memory} {a : Word}

/-- FXRSTOR takes each field from its offset (R175). -/
theorem fieldOf_fxReads {w off : Nat} (h : (off, w / 8) ∈ fxReads) :
    fieldOf w off (loadFields m a fxReads) = imageField m a w off := by
  have hdistinct : fxReads.Pairwise fun e f => e.1 ≠ f.1 := by decide
  exact congrArg (fromBytes w) (fieldBytes_loadFields m a hdistinct h)

/-- `load80` reads the ten bytes of slot i (R172). -/
theorem slotOf_fxReads (i : Fin 8) : slotOf i (loadFields m a fxReads) = imageField m a 80 (32 + 16 * i.val) := by
  have hreads : ∀ i : Fin 8, (32 + 16 * i.val, 8) ∈ fxReads ∧ (40 + 16 * i.val, 2) ∈ fxReads := by decide
  rw [slotOf, fieldOf_fxReads (w := 16) (hreads i).2, fieldOf_fxReads (w := 64) (hreads i).1]
  refine (fromBytes_append 16 (loadBytes m (a + BitVec.ofNat 32 (32 + 16 * i.val)) 8) _).symm.trans ?_
  rw [← signExponent_addr, ← loadBytes_add]
  rfl

/-- XMM register k is one read (R173). -/
theorem fieldOf_fxReads_xmm (k : Fin 8) :
    fieldOf 128 (160 + 16 * k.val) (loadFields m a fxReads) = imageField m a 128 (160 + 16 * k.val) := by
  have hreads : ∀ k : Fin 8, (160 + 16 * k.val, 16) ∈ fxReads := by decide
  exact fieldOf_fxReads (hreads k)

end Fields

/-! ### Placing the registers -/

section Placing

variable {α β : Type} {n : Nat} (f : β → Fin n) (g : β → α)

/-- An entry that a run of assignments does not name is kept. -/
theorem foldl_set_other (l : List β) (v : Vector α n) (j : Fin n) (h : ∀ i ∈ l, f i ≠ j) :
    (l.foldl (fun v i => v.set (f i).val (g i)) v)[j] = v[j] := by
  induction l generalizing v with
  | nil => rfl
  | cons i l ih =>
    obtain ⟨hi, hl⟩ := List.forall_mem_cons.1 h
    have hne : (f i).val ≠ j.val := fun he => hi (Fin.ext he)
    rw [List.foldl_cons, ih _ hl]
    simp [hne]

/-- An entry that a run of assignments names, each a different one, takes its assigned value. -/
theorem foldl_set_same (hf : Function.Injective f) (l : List β) (v : Vector α n) {i : β} (h : i ∈ l) :
    (l.foldl (fun v i => v.set (f i).val (g i)) v)[f i] = g i := by
  induction l generalizing v with
  | nil => cases h
  | cons k l ih =>
    by_cases hi : i ∈ l
    · exact ih _ hi
    · obtain rfl : i = k := (List.mem_cons.1 h).resolve_right hi
      have hothers : ∀ j ∈ l, f j ≠ f i := fun j hj he => hi (hf he ▸ hj)
      rw [List.foldl_cons, foldl_set_other f g l _ _ hothers]
      simp

/-- Assigning the values that stand there changes nothing. -/
theorem foldl_set_self (l : List β) (v : Vector α n) (h : ∀ i, g i = v[f i]) :
    l.foldl (fun v i => v.set (f i).val (g i)) v = v := by
  induction l with
  | nil => rfl
  | cons i l ih => simpa [h i] using ih

end Placing

/-- Different logical registers lie in different physical slots (R39, R171). -/
theorem physSlot_injective (top : BitVec 3) : Function.Injective (physSlot top) := by
  intro i j h
  have hval := congrArg Fin.val h
  simp only [physSlot] at hval
  omega

/-- Slot i is placed in the physical slot of ST(i) (R171, R175). -/
theorem placeSlots_physSlot (top : BitVec 3) (img : List (Nat × List Byte)) (old : Vector (BitVec 80) 8) (i : Fin 8) :
    (placeSlots top img old)[physSlot top i] = slotOf i img :=
  foldl_set_same (physSlot top) (slotOf · img) (physSlot_injective top) indices old (mem_indices i)

theorem placeXmm_getElem (img : List (Nat × List Byte)) (old : Vector (BitVec 128) 8) (k : Fin 8) :
    (placeXmm img old)[k] = fieldOf 128 (160 + 16 * k.val) img :=
  foldl_set_same id (fun k : Fin 8 => fieldOf 128 (160 + 16 * k.val) img) Function.injective_id indices old (mem_indices k)

/-! ### The answers -/

section Answers

variable {s : State} {a : Word}

theorem mxcsrReserved_iff (mask v : Word) : mxcsrReserved mask v = true ↔ v &&& ~~~mask ≠ 0 := bne_iff_ne

theorem exec_fxrstor : exec (.fxrstor a) s = execFxrstor a s := rfl

/-- After its permission check FXRSTOR reads MXCSR (R175). -/
theorem memRead_mxcsr (hreadable : AllReadable s a 512) :
    memRead 32 (a + 24) (record (.checkReadable a 512) s) =
      .going (imageField s.mem a 32 24) { s with bus := s.bus ++ [.checkReadable a 512, .read (a + 24) 4] } := by
  have hmxcsr : AllReadable s (a + 24) 4 := hreadable.sub (addrsFrom_sub a 24 4 512 (by decide))
  have hcalls : record (.read (a + 24) 4) (record (.checkReadable a 512) s) =
      { s with bus := s.bus ++ [.checkReadable a 512, .read (a + 24) 4] } := by simp [record]
  rw [← hcalls]
  exact memRead_ok 32 (a + 24) _ ((AllReadable.congr rfl).2 hmxcsr)

/-- FXRSTOR with its checks passed and no reserved bit: the restored state, and nothing else but the records (R175). -/
theorem exec_fxrstor_ok (halign : AlignOk s a) (hreadable : AllReadable s a 512)
    (hmxcsr : imageField s.mem a 32 24 &&& ~~~s.params.mxcsrMask = 0) :
    exec (.fxrstor a) s = .next { s with
      fx := fxRestored s.params.fxrstorIpQuirk (imageField s.mem a 32 24) (loadFields s.mem a fxReads) s.fx
      bus := s.bus ++ [.checkReadable a 512, .read (a + 24) 4] ++
        fxReads.map (fun e => .read (a + BitVec.ofNat 32 e.1) e.2)
      response := .ok 0 } := by
  have hfields : ∀ e ∈ fxReads, AllReadable s (a + BitVec.ofNat 32 e.1) e.2 := fun e he =>
    hreadable.sub (addrsFrom_sub a e.1 e.2 512 (fxReads_inside e he))
  have hlegal : ¬ mxcsrReserved s.params.mxcsrMask (imageField s.mem a 32 24) = true := fun hreserved =>
    (mxcsrReserved_iff _ _).1 hreserved hmxcsr
  have hloaded := readFields_ok a fxReads { s with bus := s.bus ++ [.checkReadable a 512, .read (a + 24) 4] }
    fun e he => (AllReadable.congr rfl).2 (hfields e he)
  rw [exec_fxrstor, execFxrstor, alignCheck_ok a s halign, andThen_going, checkReadable_ok a 512 s hreadable, andThen_going,
    memRead_mxcsr hreadable, andThen_going, if_neg hlegal, hloaded]
  rfl

/-- FXRSTOR at a misaligned address (R178). -/
theorem exec_fxrstor_misaligned (halign : ¬ AlignOk s a) :
    exec (.fxrstor a) s = .next { s with response := .fault (.gp 0) } := by
  rw [exec_fxrstor, execFxrstor, alignCheck_fault a s halign]
  rfl

/-- FXRSTOR on bytes that are not all readable (R175). -/
theorem exec_fxrstor_denied (halign : AlignOk s a) (hreadable : ¬ AllReadable s a 512) :
    ∃ x ∈ addrsFrom a 512, byteReadable s x = false ∧ exec (.fxrstor a) s = .next { s with
      response := .fault (.memFault x .read), bus := s.bus ++ [.checkReadable a 512], draws := s.draws + 1 } := by
  obtain ⟨x, hx, hdenied, hraised⟩ := checkReadable_fault a 512 s hreadable
  refine ⟨x, hx, hdenied, ?_⟩
  rw [exec_fxrstor, execFxrstor, alignCheck_ok a s halign, andThen_going, hraised]
  rfl

/-- FXRSTOR of an image with a reserved MXCSR bit (R175, R176). -/
theorem exec_fxrstor_reserved (halign : AlignOk s a) (hreadable : AllReadable s a 512)
    (hmxcsr : imageField s.mem a 32 24 &&& ~~~s.params.mxcsrMask ≠ 0) :
    exec (.fxrstor a) s = .next { s with
      response := .fault (.gp 0), bus := s.bus ++ [.checkReadable a 512, .read (a + 24) 4] } := by
  have hreserved : mxcsrReserved s.params.mxcsrMask (imageField s.mem a 32 24) = true := (mxcsrReserved_iff _ _).2 hmxcsr
  rw [exec_fxrstor, execFxrstor, alignCheck_ok a s halign, andThen_going, checkReadable_ok a 512 s hreadable, andThen_going,
    memRead_mxcsr hreadable, andThen_going, if_pos hreserved]
  rfl

end Answers

/-- Settles O36: the restored state takes each field from its offset and places the registers. -/
theorem fxrstorLoadsTheImage : Obligations.FxrstorLoadsTheImage := by
  intro s a
  refine ⟨rfl, fun halign hreadable hmxcsr => ⟨_, exec_fxrstor_ok halign hreadable hmxcsr, rfl, fieldOf_fxReads (by decide),
    congrArg splitRest (fieldOf_fxReads (by decide)), congrArg splitTop (fieldOf_fxReads (by decide)),
    congrArg (~~~ ·) (fieldOf_fxReads (by decide)), fieldOf_fxReads (by decide), fun hquirk => ?plain, fun hquirk => ?quirk,
    fieldOf_fxReads (by decide), fieldOf_fxReads (by decide), rfl, fun i j hj => ?slots,
    fun k => (placeXmm_getElem _ _ k).trans (fieldOf_fxReads_xmm k),
    rfl, rfl, rfl, ⟨rfl, rfl, rfl, rfl, rfl, rfl⟩, rfl⟩, exec_fxrstor_misaligned, exec_fxrstor_denied, exec_fxrstor_reserved⟩
  case plain =>
    rw [hquirk]
    exact ⟨fieldOf_fxReads (by decide), fieldOf_fxReads (by decide)⟩
  case quirk =>
    rw [hquirk]
    exact ⟨congrArg (BitVec.setWidth 32) (fieldOf_fxReads (w := 16) (off := 12) (by decide)), rfl⟩
  case slots =>
    obtain rfl : j = physSlot _ i := Fin.ext hj
    exact (placeSlots_physSlot _ _ _ i).trans (slotOf_fxReads i)

end Sys2Proof.Machine
end

section
/-! The two codec commands together: what a fault leaves, and FXRSTOR after FXSAVE (42_fxstate.md R179, R180). -/

namespace Sys2Proof.Machine

section Faults

variable {s t : State} {a : Word} {f : FaultSignal}

/-- In each faulting case of FXSAVE only the response and the records change. -/
theorem exec_fxsave_fault (h : exec (.fxsave a) s = .next t) (hfault : t.response = .fault f) :
    SameBlock s t ∧ t.mem = s.mem := by
  by_cases halign : AlignOk s a
  · by_cases hwritable : AllWritable s a 512
    · cases (exec_fxsave_ok halign hwritable).symm.trans h
      cases hfault
    · obtain ⟨x, -, -, hdenied⟩ := exec_fxsave_denied halign hwritable
      cases hdenied.symm.trans h
      exact ⟨⟨rfl, rfl, rfl, rfl⟩, rfl⟩
  · cases (exec_fxsave_misaligned halign).symm.trans h
    exact ⟨⟨rfl, rfl, rfl, rfl⟩, rfl⟩

/-- In each faulting case of FXRSTOR only the response and the records change. -/
theorem exec_fxrstor_fault (h : exec (.fxrstor a) s = .next t) (hfault : t.response = .fault f) :
    SameBlock s t ∧ t.mem = s.mem := by
  by_cases halign : AlignOk s a
  · by_cases hreadable : AllReadable s a 512
    · by_cases hmxcsr : imageField s.mem a 32 24 &&& ~~~s.params.mxcsrMask = 0
      · cases (exec_fxrstor_ok halign hreadable hmxcsr).symm.trans h
        cases hfault
      · cases (exec_fxrstor_reserved halign hreadable hmxcsr).symm.trans h
        exact ⟨⟨rfl, rfl, rfl, rfl⟩, rfl⟩
    · obtain ⟨x, -, -, hdenied⟩ := exec_fxrstor_denied halign hreadable
      cases hdenied.symm.trans h
      exact ⟨⟨rfl, rfl, rfl, rfl⟩, rfl⟩
  · cases (exec_fxrstor_misaligned halign).symm.trans h
    exact ⟨⟨rfl, rfl, rfl, rfl⟩, rfl⟩

end Faults

/-- Settles O37, from the faulting cases of the two commands. -/
theorem codecFaultsLeaveStateAndMemory : Obligations.CodecFaultsLeaveStateAndMemory :=
  fun _ _ _ _ hfault => ⟨fun h => exec_fxrstor_fault h hfault, fun h => exec_fxsave_fault h hfault⟩

/-! ### Round trip -/

/-- A word with no bit outside a mask is its masked part. -/
theorem and_eq_self_of_and_not {n : Nat} {v mask : BitVec n} (h : v &&& ~~~mask = 0) : v &&& mask = v := by
  have hparts : (v &&& mask) ||| (v &&& ~~~mask) = v := by
    rw [← BitVec.and_or_distrib_left, BitVec.or_not_self, BitVec.and_allOnes]
  simpa [h] using hparts

/-- `split_status` finds the `fsw_rest` part of a `status_word` (10_state.md R35). -/
theorem splitRest_statusWord {x : FxState} (hrest : x.fswRest &&& ~~~fswRestMask = 0) :
    splitRest (statusWord x) = x.fswRest := by
  have htop : ∀ top : BitVec 3, (top.setWidth 16 <<< 11) &&& fswRestMask = 0 := by decide
  rw [splitRest, statusWord, BitVec.and_or_distrib_right, htop, and_eq_self_of_and_not hrest, and_eq_self_of_and_not hrest]
  exact BitVec.or_zero

/-- `split_status` finds the TOP field of a `status_word` (R35). -/
theorem splitTop_statusWord (x : FxState) : splitTop (statusWord x) = x.stackPtr := by
  have htop : ∀ top : BitVec 3, (top.setWidth 16 <<< 11).extractLsb' 11 3 = top := by decide
  have hmask : fswRestMask.extractLsb' 11 3 = 0 := by decide
  rw [splitTop, statusWord, BitVec.extractLsb'_or, BitVec.extractLsb'_and, hmask, htop]
  simp

section RoundTrip

variable {mask : Word} {x : FxState} {m : Memory} {a : Word}

/-- A field that FXSAVE wrote and FXRSTOR reads has its value back. -/
theorem imageField_fxImage {w off : Nat} {v : BitVec w} (hbytes : w ≤ 8 * (w / 8))
    (h : (off, toBytes (w / 8) v) ∈ fxImage mask x) : imageField (storeFields m a (fxImage mask x)) a w off = v := by
  rw [imageField, loadBytes_fxImage h, fromBytes_toBytes _ w v hbytes]

/-- FXRSTOR takes back each field of the image by its offset; the three facts about the two field lists are computed. -/
theorem fieldOf_fxImage (x : FxState) (off : Nat) {w : Nat} (v : BitVec w) (hread : (off, w / 8) ∈ fxReads := by decide)
    (hbytes : w ≤ 8 * (w / 8) := by decide) (h : (off, toBytes (w / 8) v) ∈ fxImage mask x := by simp [fxImage]) :
    fieldOf w off (loadFields (storeFields m a (fxImage mask x)) a fxReads) = v :=
  (fieldOf_fxReads hread).trans (imageField_fxImage hbytes h)

/-- Slot i of the image is logical register ST(i) again (R171, R172). -/
theorem slotOf_fxImage (i : Fin 8) :
    slotOf i (loadFields (storeFields m a (fxImage mask x)) a fxReads) = logicalST x i := by
  rw [slotOf_fxReads, imageField, loadBytes_fxImage_slot, fromBytes_toBytes 10 80 _ (by decide)]

/-- XMM register k is read back (R173). -/
theorem fieldOf_fxImage_xmm (k : Fin 8) :
    fieldOf 128 (160 + 16 * k.val) (loadFields (storeFields m a (fxImage mask x)) a fxReads) = x.xmm[k] := by
  rw [fieldOf_fxReads_xmm, imageField_fxImage (by decide) (xmm_mem_fxImage mask x k)]

/-- The state that FXRSTOR makes of the image that FXSAVE stored (R179). -/
theorem fxRestored_fxImage (quirk : Bool) (hrest : x.fswRest &&& ~~~fswRestMask = 0) :
    fxRestored quirk (imageField (storeFields m a (fxImage mask x)) a 32 24)
        (loadFields (storeFields m a (fxImage mask x)) a fxReads) x =
      { x with fpuIp := if quirk then x.fpuIpSelector.setWidth 32 else x.fpuIp } := by
  have hmxcsr : imageField (storeFields m a (fxImage mask x)) a 32 24 = x.mxcsr :=
    imageField_fxImage (by decide) (by simp [fxImage])
  have hslots : placeSlots x.stackPtr (loadFields (storeFields m a (fxImage mask x)) a fxReads) x.stPhys = x.stPhys :=
    foldl_set_self (physSlot x.stackPtr) _ indices x.stPhys slotOf_fxImage
  have hxmm : placeXmm (loadFields (storeFields m a (fxImage mask x)) a fxReads) x.xmm = x.xmm :=
    foldl_set_self id _ indices x.xmm fieldOf_fxImage_xmm
  simp only [fxRestored, fieldOf_fxImage x 0 x.fcw, fieldOf_fxImage x 2 (statusWord x), splitRest_statusWord hrest,
    splitTop_statusWord, fieldOf_fxImage x 4 (~~~x.stackEmpty), fieldOf_fxImage x 6 x.fpuOpcode, fieldOf_fxImage x 8 x.fpuIp,
    fieldOf_fxImage x 12 x.fpuIpSelector, fieldOf_fxImage x 16 x.fpuDp, fieldOf_fxImage x 20 x.fpuDpSelector, hmxcsr,
    hslots, hxmm, BitVec.not_not, ite_self]

end RoundTrip

/-- Settles O38: FXSAVE changes memory only, and FXRSTOR finds there the fields that it stored. -/
theorem fxrstorUndoesFxsave : Obligations.FxrstorUndoesFxsave := by
  intro s a halign hwritable hreadable hmxcsr hrest
  have hlegal : imageField (storeFields s.mem a (fxImage s.params.mxcsrMask s.fx)) a 32 24 &&& ~~~s.params.mxcsrMask = 0 := by
    rwa [imageField_fxImage (v := s.fx.mxcsr) (by decide) (by simp [fxImage])]
  refine ⟨_, _, exec_fxsave_ok halign hwritable,
    exec_fxrstor_ok halign ((AllReadable.congr rfl).2 hreadable) hlegal, rfl, fxRestored_fxImage _ hrest, rfl, rfl, rfl⟩

end Sys2Proof.Machine
end

section
/-! The idle step, and the answers and refusals of a command (60_exceptions.md R200, R204, R216). -/

namespace Sys2Proof.Machine

/-- Settles O6: with an empty queue a step answers its own state (R216). -/
theorem idleBlockStaysTheSame : Obligations.IdleBlockStaysTheSame := by
  intro s hidle
  simp only [step, hidle]

/-- Ending a body answers a state with a result or a fault signal (R200). -/
theorem finish_answers (p : Progress Word) : ∃ t, finish p = .next t ∧ t.response ≠ .idle := by
  cases p with
  | going y s => exact ⟨driveResult y s, rfl, nofun⟩
  | raised f s => exact ⟨takeFault f s, rfl, nofun⟩

theorem opSizeOf_eq_none_iff {e : Word} : opSizeOf e = none ↔ e ≠ 7 ∧ e ≠ 15 ∧ e ≠ 31 := by
  rw [opSizeOf]
  split_ifs <;> simp_all

/-- SNAP_WRITE with an operand size that is not legal is refused (40_flags.md R117). -/
theorem exec_snap_illegal {e : Word} (h : opSizeOf e = none) (a b c d f : Word) (s : State) :
    exec (.snap a b c d e f) s = .refused .badOpSize := by
  obtain ⟨h7, h15, h31⟩ := opSizeOf_eq_none_iff.1 h
  obtain ⟨-, -, -, hrefused⟩ := snapWriteLoadsTheSnapshotOrIsRefused s a b c d e f
  exact hrefused h7 h15 h31

theorem legalOpSize_iff {e : Word} : legalOpSize e = true ↔ e = 7 ∨ e = 15 ∨ e = 31 := by
  simp [legalOpSize, or_assoc]

/-- Every command ends its body, unless it is SNAP_WRITE with an operand size that is not legal (R204, 40_flags.md R117). -/
theorem exec_eq_finish_or_badOpSize (i : Instr) (s : State) : (∃ p, exec i s = finish p) ∨
    ∃ a b c d e f, i = .snap a b c d e f ∧ (e ≠ 7 ∧ e ≠ 15 ∧ e ≠ 31) ∧ exec i s = .refused .badOpSize := by
  cases i with
  | snap a b c d e f =>
    cases hsize : opSizeOf e with
    | some n => exact .inl ⟨.going 0 _, exec_snap_legal hsize a b c d f s⟩
    | none =>
      exact .inr ⟨a, b, c, d, e, f, rfl, opSizeOf_eq_none_iff.1 hsize, exec_snap_illegal hsize a b c d f s⟩
  | push16 | push32 | pop16 | pop32 | pusha16 | pusha32 | fxsave | fxrstor => exact .inl ⟨_, rfl⟩
  | _ => exact .inl ⟨.going _ _, rfl⟩

/-- Settles O44: a body that ends answers, and a well-formed SNAP_WRITE is none of those that are refused. -/
theorem commandsAnswerUnlessTheOperandSizeIsBad : Obligations.CommandsAnswerUnlessTheOperandSizeIsBad := by
  intro i s
  obtain ⟨p, hexec⟩ | ⟨a, b, c, d, e, f, rfl, ⟨h7, h15, h31⟩, hexec⟩ := exec_eq_finish_or_badOpSize i s
  · rw [hexec]
    exact ⟨fun _ => finish_answers p, fun r h => absurd h (finish_ne_refused p r)⟩
  · refine ⟨fun hwf => ?_, fun r h => ⟨exec_refused h, a, b, c, d, e, f, rfl, h7, h15, h31⟩⟩
    rcases legalOpSize_iff.1 hwf with h | h | h
    exacts [absurd h h7, absurd h h15, absurd h h31]

end Sys2Proof.Machine
end

section
/-! What a command that ends in a fault signal has met, and what it leaves (60_exceptions.md R202, R205). -/

namespace Sys2Proof.Machine

section Faults

variable {s t : State} {f : FaultSignal}

/-- The commands that access memory, which are the ones with a failure path (R202). -/
def accessesMemory : Instr → Bool
  | .push16 _ | .push32 _ | .pop16 | .pop32 | .pusha16 | .pusha32 | .fxsave _ | .fxrstor _ => true
  | .getcf | .getpf | .getaf | .getzf | .getsf | .getof => false
  | .testO | .testB | .testZ | .testS | .testP | .testBe | .testL | .testLe => false
  | .evalcc _ | .snap _ _ _ _ _ _ | .setflags _ _ | .stackEa _ | .stackAdjust _ => false

theorem accessesMemory_of_fault {i : Instr} (h : exec i s = .next t) (hfault : t.response = .fault f) :
    accessesMemory i = true := by
  cases i with
  | push16 | push32 | pop16 | pop32 | pusha16 | pusha32 | fxsave | fxrstor => rfl
  | snap a b c d e f =>
    obtain ⟨n, rfl⟩ := execSnap_next h
    cases hfault
  | _ => cases h; cases hfault

/-- A push faults at a byte below the pointer that is not writable, and has committed nothing (R205, 41_stack.md R144, R145). -/
theorem push_fault_cause {w n : Nat} {v : BitVec w} (hn : n ≤ 2 ^ 32) (h : finishNoResult (pushValue n v s) = .next t)
    (hfault : t.response = .fault f) :
    (∃ x ∈ addrsFrom (ea s (-(BitVec.ofNat 32 n))) n, byteWritable s x = false ∧ f = .memFault x .write) ∧
      SameBlock s t ∧ t.mem = s.mem := by
  by_cases hwritable : AllWritable s (ea s (-(BitVec.ofNat 32 n))) n
  · obtain ⟨u, hnext, hok, -⟩ := push_ok n hn v s hwritable
    cases hnext.symm.trans h
    cases hok.symm.trans hfault
  · obtain ⟨x, hx, hbyte, hnext⟩ := push_fault n v s hwritable
    cases hnext.symm.trans h
    cases hfault
    exact ⟨⟨x, hx, hbyte, rfl⟩, ⟨rfl, rfl, rfl, rfl⟩, rfl⟩

/-- A pop faults at a byte at the pointer that is not readable, and has committed nothing (R205, R146, R147). -/
theorem pop_fault_cause {w : Nat} {g : BitVec w → Word}
    (h : finish (andThen (popValue w s) fun v s => .going (g v) s) = .next t) (hfault : t.response = .fault f) :
    (∃ x ∈ addrsFrom (s.ssBase + spVal s) (w / 8), byteReadable s x = false ∧ f = .memFault x .read) ∧
      SameBlock s t ∧ t.mem = s.mem := by
  by_cases hreadable : AllReadable s (s.ssBase + spVal s) (w / 8)
  · rw [popValue_ok w s hreadable] at h
    cases h
    cases hfault
  · obtain ⟨x, hx, hbyte, hraised⟩ := popValue_fault w s hreadable
    rw [hraised] at h
    cases h
    cases hfault
    exact ⟨⟨x, hx, hbyte, rfl⟩, ⟨rfl, rfl, rfl, rfl⟩, rfl⟩

theorem exec_pop32 (s : State) : exec .pop32 s = finish (andThen (popValue 32 s) fun v s => .going v s) := by
  change finish (popValue 32 s) = _
  cases popValue 32 s <;> rfl

/-- When not all slots of a PUSHA are writable, one is the first that is not. -/
theorem exists_first_denied_slot {n : Nat} (h : ¬ ∀ j, j < 8 → AllWritable s (pushaSlot s n j) n) :
    ∃ k, k < 8 ∧ (∀ j, j < k → AllWritable s (pushaSlot s n j) n) ∧ ¬ AllWritable s (pushaSlot s n k) n := by
  classical
  push Not at h
  obtain ⟨hk, hdenied⟩ := Nat.find_spec h
  exact ⟨Nat.find h, hk, fun j hj => by_contra fun hslot => Nat.find_min h hj ⟨hj.trans hk, hslot⟩, hdenied⟩

/-- A PUSHA faults at a byte of its checked block or of a slot that is not writable. Only where the block wraps has it committed
something (R205, 70_reset_and_hazards.md R235). -/
theorem pushAll_fault_cause {w n : Nat} {reg : Fin 8 → BitVec w} (hturn : n * 8 ≤ 2 ^ 16) (h : pushAll n reg s = .next t)
    (hfault : t.response = .fault f) :
    (∃ x, (x ∈ addrsFrom (ea s (-(BitVec.ofNat 32 (n * 8)))) (n * 8) ∨ InPushaSlots s n 8 x) ∧
      byteWritable s x = false ∧ f = .memFault x .write) ∧
      ((SameBlock s t ∧ t.mem = s.mem) ∨ PushaWraps s (n * 8)) := by
  by_cases hblock : AllWritable s (ea s (-(BitVec.ofNat 32 (n * 8)))) (n * 8)
  · have hslots : ¬ ∀ j, j < 8 → AllWritable s (pushaSlot s n j) n := fun hslots => by
      obtain ⟨u, hnext, hok, -⟩ := pushAll_ok (reg := reg) hturn hblock hslots
      cases hnext.symm.trans h
      cases hok.symm.trans hfault
    obtain ⟨k, hk, hbefore, hdenied⟩ := exists_first_denied_slot hslots
    obtain ⟨u, x, hx, hbyte, hnext, hsignal, -⟩ := pushAll_slotFault (reg := reg) hturn hk hblock hbefore hdenied
    cases hnext.symm.trans h
    cases hsignal.symm.trans hfault
    have hwraps : PushaWraps s (n * 8) := by_contra fun hwraps =>
      hslots fun j hj => hblock.sub (pushaSlot_in_block hwraps hj)
    exact ⟨⟨x, .inr ⟨k, hk, hx⟩, hbyte, rfl⟩, .inr hwraps⟩
  · obtain ⟨x, hx, hbyte, hnext⟩ := pushAll_checkFault reg hblock
    cases hnext.symm.trans h
    cases hfault
    exact ⟨⟨x, .inl hx, hbyte, rfl⟩, .inl ⟨⟨rfl, rfl, rfl, rfl⟩, rfl⟩⟩

/-- FXSAVE faults on its alignment or at a byte that is not writable (42_fxstate.md R174, R178). -/
theorem exec_fxsave_fault_cause {a : Word} (h : exec (.fxsave a) s = .next t) (hfault : t.response = .fault f) :
    (f = .gp 0 ∧ ¬ AlignOk s a) ∨ ∃ x ∈ addrsFrom a 512, byteWritable s x = false ∧ f = .memFault x .write := by
  by_cases halign : AlignOk s a
  · by_cases hwritable : AllWritable s a 512
    · cases (exec_fxsave_ok halign hwritable).symm.trans h
      cases hfault
    · obtain ⟨x, hx, hbyte, hdenied⟩ := exec_fxsave_denied halign hwritable
      cases hdenied.symm.trans h
      cases hfault
      exact .inr ⟨x, hx, hbyte, rfl⟩
  · cases (exec_fxsave_misaligned halign).symm.trans h
    cases hfault
    exact .inl ⟨rfl, halign⟩

/-- FXRSTOR faults on its alignment, on a reserved bit of MXCSR, or at a byte that is not readable (R175, R176, R178). -/
theorem exec_fxrstor_fault_cause {a : Word} (h : exec (.fxrstor a) s = .next t) (hfault : t.response = .fault f) :
    (f = .gp 0 ∧ (¬ AlignOk s a ∨ imageField s.mem a 32 24 &&& ~~~s.params.mxcsrMask ≠ 0)) ∨
      ∃ x ∈ addrsFrom a 512, byteReadable s x = false ∧ f = .memFault x .read := by
  by_cases halign : AlignOk s a
  · by_cases hreadable : AllReadable s a 512
    · by_cases hmxcsr : imageField s.mem a 32 24 &&& ~~~s.params.mxcsrMask = 0
      · cases (exec_fxrstor_ok halign hreadable hmxcsr).symm.trans h
        cases hfault
      · cases (exec_fxrstor_reserved halign hreadable hmxcsr).symm.trans h
        cases hfault
        exact .inl ⟨rfl, .inr hmxcsr⟩
    · obtain ⟨x, hx, hbyte, hdenied⟩ := exec_fxrstor_denied halign hreadable
      cases hdenied.symm.trans h
      cases hfault
      exact .inr ⟨x, hx, hbyte, rfl⟩
  · cases (exec_fxrstor_misaligned halign).symm.trans h
    cases hfault
    exact .inl ⟨rfl, .inl halign⟩

end Faults

/-- Settles O41: each command that accesses memory faults for its own causes, and no other command faults. -/
theorem onlyTheListedCausesFault : Obligations.OnlyTheListedCausesFault := by
  intro i s t f h hfault
  cases i with
  | push16 v =>
    obtain ⟨⟨x, hx, hbyte, rfl⟩, -⟩ := push_fault_cause (n := 2) (by decide) h hfault
    exact ⟨hbyte, .inr (.inr (.inr (.inl ⟨v, rfl, hx⟩)))⟩
  | push32 v =>
    obtain ⟨⟨x, hx, hbyte, rfl⟩, -⟩ := push_fault_cause (n := 4) (by decide) h hfault
    exact ⟨hbyte, .inr (.inr (.inr (.inr ⟨v, rfl, hx⟩)))⟩
  | pop16 =>
    obtain ⟨⟨x, hx, hbyte, rfl⟩, -⟩ := pop_fault_cause (w := 16) h hfault
    exact ⟨hbyte, .inr (.inl ⟨rfl, hx⟩)⟩
  | pop32 =>
    obtain ⟨⟨x, hx, hbyte, rfl⟩, -⟩ := pop_fault_cause (w := 32) (g := id) (exec_pop32 s ▸ h) hfault
    exact ⟨hbyte, .inr (.inr ⟨rfl, hx⟩)⟩
  | pusha16 =>
    obtain ⟨⟨x, hx, hbyte, rfl⟩, -⟩ := pushAll_fault_cause (n := 2) (by decide) h hfault
    exact ⟨hbyte, .inr (.inl ⟨rfl, hx⟩)⟩
  | pusha32 =>
    obtain ⟨⟨x, hx, hbyte, rfl⟩, -⟩ := pushAll_fault_cause (n := 4) (by decide) h hfault
    exact ⟨hbyte, .inr (.inr (.inl ⟨rfl, hx⟩))⟩
  | fxsave a =>
    obtain ⟨rfl, halign⟩ | ⟨x, hx, hbyte, rfl⟩ := exec_fxsave_fault_cause h hfault
    · exact ⟨rfl, .inl ⟨a, rfl, halign⟩⟩
    · exact ⟨hbyte, .inl ⟨a, rfl, hx⟩⟩
  | fxrstor a =>
    obtain ⟨rfl, hcause⟩ | ⟨x, hx, hbyte, rfl⟩ := exec_fxrstor_fault_cause h hfault
    · exact ⟨rfl, .inr ⟨a, rfl, hcause⟩⟩
    · exact ⟨hbyte, .inl ⟨a, rfl, hx⟩⟩
  | _ => cases accessesMemory_of_fault h hfault

/-- Settles O42: a fault is raised before the command commits, but for a PUSHA whose block wraps. -/
theorem faultsArePreciseExceptWrappedPusha : Obligations.FaultsArePreciseExceptWrappedPusha := by
  intro i s t f h hfault
  cases i with
  | push16 v => exact .inl (push_fault_cause (n := 2) (by decide) h hfault).2
  | push32 v => exact .inl (push_fault_cause (n := 4) (by decide) h hfault).2
  | pop16 => exact .inl (pop_fault_cause (w := 16) h hfault).2
  | pop32 => exact .inl (pop_fault_cause (w := 32) (g := id) (exec_pop32 s ▸ h) hfault).2
  | pusha16 => exact (pushAll_fault_cause (n := 2) (by decide) h hfault).2.imp_right fun hwraps => .inl ⟨rfl, hwraps⟩
  | pusha32 => exact (pushAll_fault_cause (n := 4) (by decide) h hfault).2.imp_right fun hwraps => .inr ⟨rfl, hwraps⟩
  | fxsave a => exact .inl (exec_fxsave_fault h hfault)
  | fxrstor a => exact .inl (exec_fxrstor_fault h hfault)
  | _ => cases accessesMemory_of_fault h hfault

end Sys2Proof.Machine
end

section
/-! A command does not look at the model's records (the response, the record of calls, the counter of draws), so that a command
issued again meets what it met at first (60_exceptions.md R209). -/

namespace Sys2Proof.Machine

/-- The model's own records (log 4, log 13, log 14). -/
structure Records where
  response : Response
  bus : List BusCall
  draws : Nat

/-- The state with other records. -/
def State.withRecords (s : State) (r : Records) : State :=
  { s with response := r.response, bus := r.bus, draws := r.draws }

/-- After a fault that left the block and memory alone, only the records are different. -/
theorem eq_withRecords {s t : State} (hblock : SameBlock s t) (hmem : t.mem = s.mem) (hinputs : SameInputs s t) :
    t = s.withRecords ⟨t.response, t.bus, t.draws⟩ := by
  obtain ⟨hgpr, hfl, -, hfx⟩ := hblock
  obtain ⟨hmode, hbase, hunreadable, hunwritable, hparams, hissued⟩ := hinputs
  cases t
  simp_all [State.withRecords]

/-- A part of a command that, where it goes on, does so whatever the records are, with the same value and the same state but for
the records. Where it raises, the draw decides the reported address. -/
def IgnoresRecords {α : Type} (p : State → Progress α) : Prop :=
  ∀ (s u : State) (v : α), p s = .going v u → ∀ r, ∃ r', p (s.withRecords r) = .going v (u.withRecords r')

namespace IgnoresRecords

/-- Going on with a value and a state that do not come from the records. -/
theorem going {α : Type} (v : State → α) (g : State → State) (hv : ∀ s r, v (s.withRecords r) = v s := by intros; rfl)
    (hg : ∀ s r, g (s.withRecords r) = (g s).withRecords r := by intros; rfl) :
    IgnoresRecords (fun s => .going (v s) (g s)) := by
  intro s u _ h r
  cases h
  exact ⟨r, congrArg₂ Progress.going (hv s r) (hg s r)⟩

theorem andThen {α β : Type} {p : State → Progress α} {k : α → State → Progress β} (hp : IgnoresRecords p)
    (hk : ∀ v, IgnoresRecords (k v)) : IgnoresRecords (fun s => Machine.andThen (p s) k) := by
  intro s u w h r
  obtain ⟨v, t, hfirst, hrest⟩ := andThen_eq_going h
  obtain ⟨r₁, hfirst'⟩ := hp s t v hfirst r
  obtain ⟨r₂, hrest'⟩ := hk v t u w hrest r₁
  exact ⟨r₂, by simpa only [hfirst', andThen_going] using hrest'⟩

/-- A part with an argument that is made of the state, but not of the records. -/
theorem of_argument {α β : Type} {p : β → State → Progress α} (hp : ∀ b, IgnoresRecords (p b)) (c : State → β)
    (hc : ∀ s r, c (s.withRecords r) = c s := by intros; rfl) : IgnoresRecords (fun s => p (c s) s) := by
  intro s u v h r
  simpa only [hc] using hp (c s) s u v h r

/-- A test that does not look at the records, before the rest of a command. -/
theorem raiseIf {α : Type} {p : State → Progress α} (c : State → Bool) (f : FaultSignal) (hp : IgnoresRecords p)
    (hc : ∀ s r, c (s.withRecords r) = c s := by intros; rfl) :
    IgnoresRecords (fun s => if c s then .raised f s else p s) := by
  intro s u v h r
  cases htest : c s with
  | true =>
    simp only [htest, if_true] at h
    cases h
  | false =>
    simp only [hc, htest] at h ⊢
    exact hp s u v h r

/-! ### The primitives -/

/-- The common start of every primitive: the call is recorded, then its permission is tested (20_memory.md R64, R65). -/
theorem permission (c : BusCall) (acc : Access) (bad : State → List Word)
    (hbad : ∀ s r, bad (s.withRecords r) = bad s := by intros; rfl) :
    IgnoresRecords (fun s => faultUnlessAll (bad s) acc (record c s)) := by
  intro s u v h r
  simp only [hbad]
  cases hcase : bad s with
  | nil =>
    rw [faultUnlessAll_eq_going h]
    exact ⟨⟨r.response, r.bus ++ [c], r.draws⟩, rfl⟩
  | cons x rest =>
    simp only [hcase] at h
    cases h

theorem checkWritable (a : Word) (n : Nat) : IgnoresRecords (checkWritable a n) :=
  permission _ .write (badWrites · a n)

theorem checkReadable (a : Word) (n : Nat) : IgnoresRecords (checkReadable a n) :=
  permission _ .read (badReads · a n)

theorem alignCheck (a : Word) : IgnoresRecords (alignCheck a) := by
  intro s u v h r
  by_cases halign : AlignOk s a
  · obtain rfl := alignCheck_eq_going h
    exact ⟨r, alignCheck_ok a _ halign⟩
  · cases (alignCheck_fault a s halign).symm.trans h

theorem readBytes (a : Word) (n : Nat) : IgnoresRecords (readBytes a n) :=
  (permission _ .read (badReads · a n)).andThen fun _ => going (fun s => loadBytes s.mem a n) id

theorem memRead (w : Nat) (a : Word) : IgnoresRecords (memRead w a) :=
  (readBytes a (w / 8)).andThen fun bs => going (fun _ => fromBytes w bs) id

theorem writeBytes (a : Word) (bs : List Byte) : IgnoresRecords (writeBytes a bs) :=
  (permission _ .write (badWrites · a bs.length)).andThen fun _ =>
    going (fun _ => ()) (fun s => { s with mem := storeBytes s.mem a bs })

theorem writeFields (a : Word) (fields : List (Nat × List Byte)) : IgnoresRecords (writeFields a fields) := by
  induction fields with
  | nil => exact going (fun _ => ()) id
  | cons field rest ih => exact (writeBytes _ field.2).andThen fun _ => ih

theorem readFields (a : Word) (fields : List (Nat × Nat)) : IgnoresRecords (readFields a fields) := by
  induction fields with
  | nil => exact going (fun _ => []) id
  | cons field rest ih =>
    exact (readBytes _ field.2).andThen fun bs => ih.andThen fun img => going (fun _ => (field.1, bs) :: img) id

/-! ### The bodies of the commands -/

theorem adjust {α : Type} (v : α) (amt : Word) : IgnoresRecords (fun s => .going v (adjust amt s)) :=
  going (fun _ => v) (Machine.adjust amt) (hg := fun s r => by rw [adjust_eq, adjust_eq]; rfl)

theorem pushValue {w : Nat} (n : Nat) (v : BitVec w) : IgnoresRecords (pushValue n v) :=
  of_argument (fun a => (writeBytes a (toBytes n v)).andThen fun _ => adjust () _) (ea · (-(BitVec.ofNat 32 n)))

theorem pushValues {w : Nat} (n : Nat) (vs : List (BitVec w)) : IgnoresRecords (pushValues n vs) := by
  induction vs with
  | nil => exact going (fun _ => ()) id
  | cons v vs ih => exact (pushValue n v).andThen fun _ => ih

theorem popValue (w : Nat) : IgnoresRecords (popValue w) :=
  of_argument (fun a => (memRead w a).andThen fun v => adjust v _) (fun s => s.ssBase + spVal s)

end IgnoresRecords

/-- A command whose body goes on with other records answers the same, but for the records. -/
theorem finish_withRecords {p : State → Progress Word} (hp : IgnoresRecords p) {s u : State} {y : Word}
    (h : finish (p s) = .next u) (hok : u.response = .ok y) (r : Records) :
    ∃ r', finish (p (s.withRecords r)) = .next (driveResult y (u.withRecords r')) := by
  obtain ⟨t, hbody, rfl⟩ := finish_ok h hok
  obtain ⟨r', hbody'⟩ := hp s t y hbody r
  exact ⟨r', congrArg finish hbody'⟩

theorem finishNoResult_withRecords {p : State → Progress Unit} (hp : IgnoresRecords p) {s u : State} {y : Word}
    (h : finishNoResult (p s) = .next u) (hok : u.response = .ok y) (r : Records) :
    ∃ r', finishNoResult (p (s.withRecords r)) = .next (driveResult y (u.withRecords r')) :=
  finish_withRecords (hp.andThen fun _ => .going (fun _ => 0) id) h hok r

theorem pushAll_withRecords {w n : Nat} {reg : Fin 8 → BitVec w} {s u : State} {y : Word} (h : pushAll n reg s = .next u)
    (hok : u.response = .ok y) (r : Records) :
    ∃ r', pushAll n reg (s.withRecords r) = .next (driveResult y (u.withRecords r')) :=
  finishNoResult_withRecords (p := fun s => andThen (checkWritable (ea s (-(BitVec.ofNat 32 (n * 8)))) (n * 8) s) fun _ t =>
    pushValues n (indices.map reg) t)
    (.of_argument (fun a => (IgnoresRecords.checkWritable a _).andThen fun _ => .pushValues n _) (ea · _)) h hok r

theorem execFxsave_withRecords {a : Word} {s u : State} {y : Word} (h : execFxsave a s = .next u) (hok : u.response = .ok y)
    (r : Records) : ∃ r', execFxsave a (s.withRecords r) = .next (driveResult y (u.withRecords r')) :=
  finishNoResult_withRecords
    ((IgnoresRecords.alignCheck a).andThen fun _ =>
      (IgnoresRecords.checkWritable a 512).andThen fun _ =>
        .of_argument (.writeFields a) fun s => fxImage s.params.mxcsrMask s.fx) h hok r

theorem execFxrstor_withRecords {a : Word} {s u : State} {y : Word} (h : execFxrstor a s = .next u) (hok : u.response = .ok y)
    (r : Records) : ∃ r', execFxrstor a (s.withRecords r) = .next (driveResult y (u.withRecords r')) :=
  finishNoResult_withRecords
    ((IgnoresRecords.alignCheck a).andThen fun _ =>
      (IgnoresRecords.checkReadable a 512).andThen fun _ =>
        (IgnoresRecords.memRead 32 (a + 24)).andThen fun newMxcsr =>
          .raiseIf (fun s => mxcsrReserved s.params.mxcsrMask newMxcsr) _
            ((IgnoresRecords.readFields a fxReads).andThen fun img =>
              .going (fun _ => ()) fun s => { s with fx := fxRestored s.params.fxrstorIpQuirk newMxcsr img s.fx })) h hok r

/-- A command that ends `Ok` ends so with other records too, in the same state but for the records. -/
theorem exec_withRecords {i : Instr} {s u : State} {y : Word} (h : exec i s = .next u) (hok : u.response = .ok y)
    (r : Records) : ∃ r', exec i (s.withRecords r) = .next (driveResult y (u.withRecords r')) := by
  cases i with
  | push16 v => exact finishNoResult_withRecords (.pushValue 2 v) h hok r
  | push32 v => exact finishNoResult_withRecords (.pushValue 4 v) h hok r
  | pop16 =>
    exact finish_withRecords ((IgnoresRecords.popValue 16).andThen fun v => .going (fun _ => v.setWidth 32) id) h hok r
  | pop32 => exact finish_withRecords (.popValue 32) h hok r
  | pusha16 => exact pushAll_withRecords (n := 2) (reg := gpr16 s) h hok r
  | pusha32 => exact pushAll_withRecords (n := 4) (reg := fun i => s.gpr[i]) h hok r
  | fxsave a => exact execFxsave_withRecords h hok r
  | fxrstor a => exact execFxrstor_withRecords h hok r
  | stackAdjust amt => exact finish_withRecords (.adjust 0 amt) h hok r
  | snap a b c d e f =>
    cases hsize : opSizeOf e with
    | some n =>
      rw [exec_snap_legal hsize] at h ⊢
      cases h
      cases hok
      exact ⟨r, rfl⟩
    | none => cases (exec_snap_illegal hsize a b c d f s).symm.trans h
  | _ =>
    cases h
    cases hok
    exact ⟨r, rfl⟩

/-- Settles O43: the fault left nothing but the records, and the command does not look at them. -/
theorem reissueAfterFaultActsAsFirstIssue : Obligations.ReissueAfterFaultActsAsFirstIssue := by
  intro i s t u f y readDenied writeDenied hfirst hfault hwraps hplain hok
  obtain ⟨hblock, hmem⟩ := (faultsArePreciseExceptWrappedPusha i s t f hfirst hfault).resolve_right hwraps
  obtain ⟨r, hagain⟩ := exec_withRecords hplain hok ⟨t.response, t.bus, t.draws⟩
  refine ⟨driveResult y (u.withRecords r), ?_, rfl, ⟨rfl, rfl, rfl, rfl⟩, rfl⟩
  rw [eq_withRecords hblock hmem (exec_writesOnly hfirst).inputs]
  exact hagain

end Sys2Proof.Machine
end

section
/-! The external reset (70_reset_and_hazards.md R230). -/

namespace Sys2Proof.Machine

/-- Settles O49: both states are an external reset, which puts the drawn values in place. -/
theorem resetTakesTheDrawnValues : Obligations.ResetTakesTheDrawnValues := by
  intro r s t ht
  obtain ⟨before, rfl⟩ : ∃ before : State, t = before.applyReset r := by
    obtain rfl | rfl := List.mem_pair.1 ht
    · exact ⟨_, rfl⟩
    · exact ⟨s, rfl⟩
  exact ⟨rfl, rfl, rfl, rfl, rfl, rfl, rfl, rfl, rfl, rfl, and_and_not_self r.fx.fswRest fswRestMask⟩

end Sys2Proof.Machine
end

section
/-! Clean flags and the snapshot: a clean flag reads the stored bit alone, and the fold makes a flag clean at its own value
(40_flags.md R100, R117, R118; 70_reset_and_hazards.md R231, R233). -/

namespace Sys2Proof.Machine

/-! ### Clean flags -/

section Clean

variable {f g : FlagState}

/-- The snapshot plays no part in a flag that is clean (R100). -/
theorem rawFlag_eq_of_clean {x : StatusFlag} (hf : f.flagsChanged &&& flagMask x = 0)
    (hg : g.flagsChanged &&& flagMask x = 0) (hflags : f.flags = g.flags) : rawFlag x f = rawFlag x g := by
  obtain ⟨hstored, -⟩ := dirtyBitSelectsStoredOrComputed x f
  obtain ⟨hstored', -⟩ := dirtyBitSelectsStoredOrComputed x g
  rw [hstored hf, hstored' hg, hflags]

variable (h : ∀ x, rawFlag x f = rawFlag x g)
include h

/-- A condition sees the flag state through the flags' values alone (R108 to R115). -/
theorem condHolds_congr (c : Cond) : condHolds c f = condHolds c g := by
  cases c <;> simp only [condHolds, flagVal, h]

/-- A flag read sees the flag state through the raw flags alone. -/
theorem flagAnswer_congr (i : Instr) : flagAnswer i f = flagAnswer i g := by
  cases i with
  | getcf | getpf | getaf | getzf | getsf | getof => exact h _
  | testO | testB | testZ | testS | testP | testBe | testL | testLe => exact congrArg b2w (condHolds_congr h _)
  | evalcc cc => simp only [flagAnswer, Function.comp_apply, evalCondition, condHolds_congr h]
  | _ => rfl

end Clean

/-- Settles O51: with the dirty mask at 0 every flag is clean, so the answer rests on the stored bits alone. -/
theorem cleanSnapshotIsUnobservable : Obligations.CleanSnapshotIsUnobservable := by
  intro i s a b c d n hi hdirty
  have hclean (x : StatusFlag) : s.fl.flagsChanged &&& flagMask x = 0 := by
    rw [hdirty]
    exact BitVec.zero_and
  intro f
  have hanswer : flagAnswer i f = flagAnswer i s.fl :=
    flagAnswer_congr (fun x => rawFlag_eq_of_clean (f := f) (hclean x) (hclean x) rfl) i
  rw [exec_flagRead_eq hi, exec_flagRead_eq hi, hanswer]
  rfl

/-! ### One flag under the write ports -/

/-- FLAGS_WRITE under one flag's mask leaves the masks of the others whole (10_state.md R26). -/
theorem unmasked_and_flagMask (x y : StatusFlag) :
    ~~~(flagMask x &&& statusMask) &&& flagMask y = if x = y then 0 else flagMask y := by
  cases x <;> cases y <;> rfl

section OneFlag

variable (v : Word) (x y : StatusFlag) (f : FlagState)

/-- FLAGS_WRITE under one flag's mask stores that flag's bit and no other (R118). -/
theorem storeFlags_flagMask_flags : (storeFlags v (flagMask x) f).flags &&& flagMask y =
    if x = y then v &&& flagMask y else f.flags &&& flagMask y := by
  have hwritten : flagMask x &&& statusMask &&& flagMask y = if x = y then flagMask y else 0 := by
    cases x <;> cases y <;> rfl
  rw [storeFlags, BitVec.and_or_distrib_right, BitVec.and_assoc, unmasked_and_flagMask,
    BitVec.and_assoc v, hwritten]
  split <;> simp

/-- FLAGS_WRITE under one flag's mask makes that flag clean and no other (R118). -/
theorem storeFlags_flagMask_flagsChanged : (storeFlags v (flagMask x) f).flagsChanged &&& flagMask y =
    if x = y then 0 else f.flagsChanged &&& flagMask y := by
  rw [storeFlags, BitVec.and_assoc, unmasked_and_flagMask]
  split <;> simp

/-- FLAGS_WRITE under one flag's mask gives that flag the written bit and keeps every other. -/
theorem rawFlag_storeFlags_flagMask : rawFlag y (storeFlags v (flagMask x) f) =
    if x = y then v &&& flagMask y else rawFlag y f := by
  have hcomputed : computedFlag y (storeFlags v (flagMask x) f) = computedFlag y f := by cases y <;> rfl
  rw [rawFlag, storeFlags_flagMask_flags, storeFlags_flagMask_flagsChanged, hcomputed]
  by_cases hxy : x = y
  · simp only [hxy, if_true, ne_eq, not_true_eq_false, if_false]
  · simp only [hxy, if_false, rawFlag]

/-- A snapshot that leaves a clean flag out keeps its value (R117). -/
theorem flagVal_loadSnapshot_of_clean (hclean : f.flagsChanged &&& flagMask x = 0) {m : Word} (hm : m &&& flagMask x = 0)
    (a b c d : Word) (n : OpSize) : flagVal x (loadSnapshot a b c d n m f) = flagVal x f := by
  have hleft : m &&& statusMask &&& flagMask x = 0 := by
    rw [BitVec.and_assoc, BitVec.and_comm statusMask, ← BitVec.and_assoc, hm]
    exact BitVec.zero_and
  exact congrArg (· != 0) (rawFlag_eq_of_clean (f := loadSnapshot a b c d n m f) hleft hclean rfl)

end OneFlag

/-! ### The fold -/

section Fold

variable (x y : StatusFlag)

/-- The flag state after flag `x` is folded: FLAGS_WRITE has written its own value back (R233). -/
def foldFlag (f : FlagState) : FlagState := storeFlags (b2w (flagVal x f) <<< flagPos x) (flagMask x) f

theorem flagVal_foldFlag (f : FlagState) : flagVal y (foldFlag x f) = flagVal y f := by
  rw [foldFlag, flagVal, rawFlag_storeFlags_flagMask]
  by_cases hxy : x = y
  · subst hxy
    rw [if_pos rfl, flagBit_and_flagMask, if_pos rfl, flagBit_ne_zero]
  · rw [if_neg hxy, flagVal]

theorem foldFlag_clean (f : FlagState) : (foldFlag x f).flagsChanged &&& flagMask x = 0 := by
  rw [foldFlag, storeFlags_flagMask_flagsChanged, if_pos rfl]

/-- The command of R233 folds the flag. The bit is spelled as O22 spells it: shifted as a number, then taken as a word. -/
theorem exec_fold (s : State) :
    exec (.setflags (((if flagVal x s.fl then 1 else 0) <<< flagPos x : Nat) : Word) (flagMask x)) s =
      .next (driveResult 0 { s with fl := foldFlag x s.fl }) := by
  have hbit (b : Bool) : (((if b then 1 else 0) <<< flagPos x : Nat) : Word) = b2w b <<< flagPos x := by
    cases b <;> cases x <;> rfl
  rw [hbit]
  rfl

end Fold

/-- Settles O22: the fold leaves the flag clean at its own value, and a snapshot that leaves it out keeps what is clean. -/
theorem foldBeforeSnapshotKeepsTheFlag : Obligations.FoldBeforeSnapshotKeepsTheFlag := by
  intro s x a b c d e m n hsize hm
  have hsnap : flagVal x (loadSnapshot a b c d n m (foldFlag x s.fl)) = flagVal x s.fl :=
    (flagVal_loadSnapshot_of_clean x _ (foldFlag_clean x s.fl) hm a b c d n).trans (flagVal_foldFlag x x s.fl)
  exact ⟨_, _, exec_fold x s, fun y => flagVal_foldFlag x y s.fl, exec_snap_legal hsize a b c d m _, hsnap⟩

end Sys2Proof.Machine
end

section
/-! FXSAVE and FXRSTOR neither read nor write flags, general registers or stack state (the opening of 42_fxstate.md). -/

namespace Sys2Proof.Machine

/-- The change `g` of the state replaces nothing that the codec works on: besides memory, the parameters and the FPU and SSE
state (R174, R175). -/
structure OutsideCodec (g : State → State) : Prop extends OutsideMemory g where
  params : ∀ s, (g s).params = s.params
  fx : ∀ s, (g s).fx = s.fx
  after_setFx : ∀ x s, { g s with fx := x } = g { s with fx := x }

section Memory

variable {g : State → State} (hg : OutsideMemory g)
include hg

theorem checkReadable_blind (a : Word) (n : Nat) : Blind g (checkReadable a n) :=
  permission_blind hg _ (badReads_blind hg a n) .read

theorem writeFields_blind (a : Word) (fields : List (Nat × List Byte)) : Blind g (writeFields a fields) := by
  induction fields with
  | nil => exact .going ()
  | cons field rest ih => exact (writeBytes_blind hg _ field.2).andThen fun _ => ih

theorem readFields_blind (a : Word) (fields : List (Nat × Nat)) : Blind g (readFields a fields) := by
  induction fields with
  | nil => exact .going []
  | cons field rest ih =>
    exact (readBytes_blind hg _ field.2).andThen fun bs => ih.andThen fun img => .going ((field.1, bs) :: img)

end Memory

section Codec

variable {g : State → State} (hg : OutsideCodec g)
include hg

/-- The alignment check looks at the parameters alone (R178). -/
theorem alignCheck_blind (a : Word) : Blind g (alignCheck a) := by
  intro s
  have haligned : AlignOk (g s) a ↔ AlignOk s a := by rw [AlignOk, hg.params, AlignOk]
  by_cases halign : AlignOk s a
  · rw [alignCheck_ok a s halign, alignCheck_ok a (g s) (haligned.2 halign), Progress.mapState]
  · rw [alignCheck_fault a s halign, alignCheck_fault a (g s) (mt haligned.1 halign), Progress.mapState]

/-- The image that FXSAVE writes is made of the parameters and the FPU and SSE state (R174). -/
theorem writeImage_blind (a : Word) : Blind g (fun s => writeFields a (fxImage s.params.mxcsrMask s.fx) s) := by
  intro s
  simp only [hg.params, hg.fx]
  exact writeFields_blind hg.toOutsideMemory a _ s

/-- The assignments of FXRSTOR look at the parameters and the FPU and SSE state (R175). -/
theorem restore_blind (newMxcsr : Word) (img : List (Nat × List Byte)) : Blind g (fun s =>
    .going () { s with fx := fxRestored s.params.fxrstorIpQuirk newMxcsr img s.fx }) := by
  intro s
  have hrestored : fxRestored (g s).params.fxrstorIpQuirk newMxcsr img (g s).fx =
      fxRestored s.params.fxrstorIpQuirk newMxcsr img s.fx := by rw [hg.params, hg.fx]
  simp only [hrestored, hg.after_setFx, Progress.mapState]

/-- What FXRSTOR does once MXCSR is read: it faults on a reserved bit, or it reads the other fields and assigns (R175, R176). -/
theorem restoreUnlessReserved_blind (a newMxcsr : Word) : Blind g (fun s =>
    if mxcsrReserved s.params.mxcsrMask newMxcsr then .raised (.gp Config.gpCodeMxcsr) s
    else andThen (readFields a fxReads s) fun img s =>
      .going () { s with fx := fxRestored s.params.fxrstorIpQuirk newMxcsr img s.fx }) := by
  intro s
  simp only [hg.params]
  split
  · rfl
  · exact (readFields_blind hg.toOutsideMemory a fxReads).andThen (restore_blind hg newMxcsr) s

/-- Neither codec command sees what lies outside the codec. -/
theorem exec_codec_blind {i : Instr} (hi : ∃ a, i = .fxsave a ∨ i = .fxrstor a) (s : State) :
    exec i (g s) = mapNext g (exec i s) := by
  have hm := hg.toOutsideMemory
  obtain ⟨a, rfl | rfl⟩ := hi
  · exact finishNoResult_blind hm
      ((alignCheck_blind hg a).andThen fun _ => (checkWritable_blind hm a 512).andThen fun _ => writeImage_blind hg a) s
  · exact finishNoResult_blind hm
      ((alignCheck_blind hg a).andThen fun _ => (checkReadable_blind hm a 512).andThen fun _ =>
        (memRead_blind hm 32 (a + 24)).andThen fun newMxcsr => restoreUnlessReserved_blind hg a newMxcsr) s

end Codec

/-- The registers, the flag state, the stack mode and the stack base lie outside the codec. -/
theorem outsideCodec_replace (r : Vector Word 8) (f : FlagState) (m : Bool) (b : Word) :
    OutsideCodec (fun s => { s with gpr := r, fl := f, stackSize32 := m, ssBase := b }) where
  mem _ := rfl
  unreadable _ := rfl
  unwritable _ := rfl
  draws _ := rfl
  after_record _ _ := rfl
  after_draw _ := rfl
  after_setMem _ _ := rfl
  after_driveResult _ _ := rfl
  after_takeFault _ _ := rfl
  params _ := rfl
  fx _ := rfl
  after_setFx _ _ := rfl

theorem writesOf_codec {i : Instr} (hi : ∃ a, i = .fxsave a ∨ i = .fxrstor a) :
    (writesOf i).esp = false ∧ (writesOf i).fl = false := by
  obtain ⟨a, rfl | rfl⟩ := hi
  · exact ⟨rfl, rfl⟩
  · exact ⟨rfl, rfl⟩

/-- Settles O39: the codec does not see the replaced parts, and its entries of the table hold memory or the FPU state only. -/
theorem codecIgnoresFlagsRegistersAndStack : Obligations.CodecIgnoresFlagsRegistersAndStack := by
  intro i hi s r f m b
  refine ⟨exec_codec_blind (outsideCodec_replace r f m b) hi s, fun t hnext => ?_⟩
  have hw := exec_writesOnly hnext
  obtain ⟨hesp, hfl⟩ := writesOf_codec hi
  exact ⟨hw.gpr hesp, hw.fl hfl, hw.inputs.stackSize32⟩

end Sys2Proof.Machine
end
